-- ==== Sys2Proof/Word.lean ====
section
/-!
DEFINITION. The engine's value types: bytes, byte sequences and blocks (spec/00_scope.md R13).
-/

namespace Sys2Proof

/-- A byte: an unsigned integer 0 to 255 (00_scope R13, R14). -/
abbrev Byte := BitVec 8

/-- A finite sequence of bytes, possibly empty, first byte first (00_scope R13, 20_memory R51). -/
abbrev ByteSeq := List Byte

/-- A cipher block: exactly `B` = 16 bytes, the first byte at index 0 (00_scope R5, R13; 20_memory R69).
`KLEN` equals `B` (00_scope R6), so a key of the right length is a block too. -/
abbrev Block := Vector Byte 16

end Sys2Proof
end

