-- ==== Sys2Proof/Syntax.lean ====
section
/-!
DEFINITION. The command set: one constructor per row of spec/opcode_table.json (spec/30_encoding.md R72).
-/

namespace Sys2Proof

/-- The six commands. The only operand a command word encodes is the `pad` flag `P`
(30_encoding R73); every other operand is implicit (R74). -/
inductive Instr where
  /-- `PAD`, word 0x00 (40_padding R92). -/
  | pad
  /-- `UNPAD`, word 0x01 (40_padding R93). -/
  | unpad
  /-- `ECB_ENCRYPT`, words 0x04 and 0x0C (41_ecb R100). -/
  | ecbEncrypt (p : Bool)
  /-- `ECB_DECRYPT`, words 0x05 and 0x0D (41_ecb R101). -/
  | ecbDecrypt (p : Bool)
  /-- `CBC_ENCRYPT`, words 0x06 and 0x0E (42_cbc R111). -/
  | cbcEncrypt (p : Bool)
  /-- `CBC_DECRYPT`, word 0x07; it has no `pad` flag (42_cbc R112). -/
  | cbcDecrypt
  deriving DecidableEq, Repr

end Sys2Proof
end

