-- ==== Sys2Proof/WellFormed.lean ====
section
/-!
DEFINITION. Well-formedness of a command (spec/30_encoding.md R73).
-/

namespace Sys2Proof

/-- Every term of `Instr` is a command the encoding admits: the one operand is a Boolean, so the types
leave nothing to check (30_encoding R73). What can be ill-formed is a transaction, whose operand may be
longer than its buffer: `Machine.Txn.fits` checks that. -/
def Instr.wellFormed (_ : Instr) : Bool := true

end Sys2Proof
end

