-- ==== Sys2Proof/Decode.lean ====
section
/-!
DEFINITION. The decoder of the 8-bit command word, total on all 256 words, and its inverse
(spec/30_encoding.md R70 to R77, R80).
-/

namespace Sys2Proof

/-- Why a command word is reserved. 30_encoding R75 has five rows; that there are four names, the rows 0x02, 0x03
and 0x0A, 0x0B having one, is the model's choice (log entry 15). All of them raise `IllegalCmd`. -/
inductive ReservedWord where
  /-- A bit of 7:4 is set: words 0x10 to 0xFF. -/
  | reservedBits
  /-- `C = 0` with `M = 1`: words 0x02, 0x03, 0x0A, 0x0B. -/
  | modeWithoutCipher
  /-- `PAD` or `UNPAD` with `P = 1`: words 0x08, 0x09. -/
  | padFlagOnPadding
  /-- `CBC_DECRYPT` with `P = 1`: word 0x0F. -/
  | padFlagOnCbcDecrypt
  deriving DecidableEq, Repr

/-- What the decoder answers: `(op, P)` or `Reserved` (30_encoding R80). -/
inductive Decoded where
  | command (i : Instr)
  | reserved (why : ReservedWord)
  deriving DecidableEq, Repr

/-- Field `RSV`, bits 7:4 (30_encoding R71). -/
def cmdRSV (w : Byte) : BitVec 4 := w.extractLsb 7 4
/-- Field `P`, bit 3: the `pad` flag. -/
def cmdP (w : Byte) : Bool := w.getLsbD 3
/-- Field `C`, bit 2: cipher command. -/
def cmdC (w : Byte) : Bool := w.getLsbD 2
/-- Field `M`, bit 1: 0 = ECB, 1 = CBC. -/
def cmdM (w : Byte) : Bool := w.getLsbD 1
/-- Field `D`, bit 0: 0 = forward, 1 = reverse. -/
def cmdD (w : Byte) : Bool := w.getLsbD 0

/-- `Decode` of 30_encoding R80. -/
def decode (w : Byte) : Decoded :=
  if cmdRSV w ≠ 0 then .reserved .reservedBits
  else match cmdC w, cmdM w, cmdD w, cmdP w with
    | false, true, _, _ => .reserved .modeWithoutCipher
    | false, false, _, true => .reserved .padFlagOnPadding
    | true, true, true, true => .reserved .padFlagOnCbcDecrypt
    | false, false, false, false => .command .pad
    | false, false, true, false => .command .unpad
    | true, false, false, p => .command (.ecbEncrypt p)
    | true, false, true, p => .command (.ecbDecrypt p)
    | true, true, false, p => .command (.cbcEncrypt p)
    | true, true, true, false => .command .cbcDecrypt

/-- `OPC(op)`, the value of `CMD[2:0]` (30_encoding R72, R80). -/
def opcodeOf : Instr → BitVec 3
  | .pad => 0
  | .unpad => 1
  | .ecbEncrypt _ => 4
  | .ecbDecrypt _ => 5
  | .cbcEncrypt _ => 6
  | .cbcDecrypt => 7

/-- The `P` bit a command's word carries; 0 for the commands that have no such operand (30_encoding R73). -/
def padFlagOf : Instr → Bool
  | .pad | .unpad | .cbcDecrypt => false
  | .ecbEncrypt p | .ecbDecrypt p | .cbcEncrypt p => p

/-- `Encode(op, P) = (P << 3) | OPC(op)` (30_encoding R80), bits 7:4 zero (R71). -/
def encode (i : Instr) : Byte := 0#4 ++ BitVec.ofBool (padFlagOf i) ++ opcodeOf i

/-- A row of the opcode map: `w` selects it when `(w AND mask) = match` (30_encoding R72). -/
structure OpcodeRow where
  mask : Byte
  pattern : Byte
  command : Bool → Instr

/-- The opcode map of 30_encoding R72. -/
def opcodeMap : List OpcodeRow :=
  [ ⟨0xFF, 0x00, fun _ => .pad⟩,
    ⟨0xFF, 0x01, fun _ => .unpad⟩,
    ⟨0xF7, 0x04, .ecbEncrypt⟩,
    ⟨0xF7, 0x05, .ecbDecrypt⟩,
    ⟨0xF7, 0x06, .cbcEncrypt⟩,
    ⟨0xFF, 0x07, fun _ => .cbcDecrypt⟩ ]

/-- The rows a word selects. -/
def rowsSelected (w : Byte) : List OpcodeRow := opcodeMap.filter fun r => w &&& r.mask == r.pattern

/-- The command a stream of bytes begins with, and the rest: a command is always exactly one byte
(30_encoding R70, R77). -/
def decodeBytes : ByteSeq → Option (Instr × ByteSeq)
  | [] => none
  | w :: rest =>
    match decode w with
    | .command i => some (i, rest)
    | .reserved _ => none

/-- The host's question about a table row: the command whose word has the bits `w`. The table gives
every row 8 bits, so any other width, or a number of more than 8 bits, is no command word. -/
def decodeTableWord (nbits w : Nat) : Option Instr :=
  if nbits ≤ 8 ∧ w < 256 then (decodeBytes [BitVec.ofNat 8 w]).map Prod.fst else none

end Sys2Proof
end

