-- ==== Sys2Proof/Config.lean ====
section
/-!
DEFINITION. What the spec leaves to the implementation: the block-cipher primitive `E`, `D`, the
capacity `MAXLEN`, and the free values that stand for what the spec calls unspecified. An `opaque`
constant has no body, so no proof can see its value and a theorem holds whatever it is.
-/

namespace Sys2Proof

/-- The four byte buffers, each a space of its own whose offsets start at 0 (20_memory R50). -/
inductive Space where
  | key
  | iv
  | din
  | dout
  deriving DecidableEq, Repr

/-- The block-cipher primitive: two total, pure functions, first argument the key (00_scope R11).
Every meaning that applies it is written for an arbitrary `Primitive`. -/
structure Primitive where
  /-- `encrypt_block(key, plaintext)`. -/
  E : Block → Block → Block
  /-- `decrypt_block(key, ciphertext)`. -/
  D : Block → Block → Block

/-- `PrimInverse`, the named hypothesis of 00_scope R11: `D(k, E(k, b)) = b`. It is never an axiom;
a statement that needs it lists it as a premise. -/
def Primitive.Inverse (P : Primitive) : Prop := ∀ k b : Block, P.D k (P.E k b) = b

/-- The engine's `E`, an open parameter (00_scope R11, 92_eei_decisions D21; log entry 1). -/
opaque Config.primE : Block → Block → Block

/-- The engine's `D`, an open parameter (00_scope R11, 92_eei_decisions D21; log entry 1). -/
opaque Config.primD : Block → Block → Block

/-- The one instance of the primitive (00_scope R9). -/
def Config.primitive : Primitive := ⟨Config.primE, Config.primD⟩

/-- By how much `MAXLEN` exceeds `B`; `none` when `MAXLEN` is unbounded (log entry 2). -/
opaque Config.maxlenAboveBlock : Option Nat

/-- `MAXLEN`, an open parameter: a natural number of at least `B` = 16, or unbounded (`none`)
(00_scope R8, 92_eei_decisions D4). -/
def Config.MAXLEN : Option Nat := Config.maxlenAboveBlock.map (16 + ·)

/-- Capacity of `DOUT`: `MAXLEN` + 255 (00_scope R8, 10_state R20). -/
def Config.doutCapacity : Option Nat := Config.MAXLEN.map (· + 255)

/-- FREE VALUE: what a byte reads as that no transaction or command has given a value, in buffer `sp`
at offset `off` (10_state R23, R28, R34; 93_implementation_defined U10, U11, U12; log entry 3). -/
opaque Config.unspecifiedByte : Space → Nat → Byte

/-- FREE VALUE: `BLK` after the `n`-th cipher command (10_state R31, 93 U12; log entry 4). -/
opaque Config.freeBlk : Nat → Nat

/-- FREE VALUE: `NBLK` after the `n`-th cipher command (10_state R31, 93 U12; log entry 4). -/
opaque Config.freeNblk : Nat → Nat

/-- FREE VALUE: `PADN` after the `n`-th cipher command (10_state R33, 93 U12; log entry 4). -/
opaque Config.freePadn : Nat → Byte

/-- FREE VALUE: `CHAIN` after the `n`-th cipher command (10_state R32, 93 U12; log entry 4). -/
opaque Config.freeChain : Nat → Block

end Sys2Proof
end

