-- ==== Sys2Proof/Machine/State.lean ====
section
/-!
DEFINITION. The engine's state as plain data (spec/10_state.md R20), the host's transactions, the
reasons a step can stop, and the state after reset (R34).
-/

namespace Sys2Proof.Machine

/-- The contents of one buffer: (offset, byte) cells with strictly rising offsets. A byte that is not
listed is one the spec calls unspecified (log entry 3). -/
abbrev Memory := List Host.Cell

/-- The eight host transactions (20_memory section 5; 70_reset_and_hazards R150). -/
inductive Txn where
  /-- `LoadKey(s)` (20_memory R56). -/
  | loadKey (v : ByteSeq)
  /-- `LoadIV(s)` (20_memory R57). -/
  | loadIV (v : ByteSeq)
  /-- `LoadData(s)` (20_memory R58). -/
  | loadData (v : ByteSeq)
  /-- `SetBSZ(v)`; its operand is 8 bits wide (20_memory R59; 93 U16). -/
  | setBSZ (v : Byte)
  /-- `Issue(w)` (20_memory R60). -/
  | issue (w : Byte)
  /-- `ReadStatus()` (20_memory R61). -/
  | readStatus
  /-- `ReadOut()` (20_memory R62). -/
  | readOut
  /-- `Reset()` (70_reset_and_hazards R150). -/
  | reset
  deriving DecidableEq, Repr

/-- What a read transaction answers the host. -/
inductive Reply where
  /-- The value of `STATUS` (20_memory R61). -/
  | status (v : Byte)
  /-- The pair `(DOUT_LEN, DOUT[0:DOUT_LEN])` (20_memory R62). -/
  | out (n : Nat) (v : ByteSeq)
  deriving DecidableEq, Repr

/-- The four errors a command can end with (60_exceptions R120). None of them stops the machine. -/
inductive CmdError where
  /-- `InvalidInput` (R121). -/
  | invalidInput
  /-- `PaddingError::BadLength` (R122). -/
  | badLength
  /-- `PaddingError::BadPadding` (R123). -/
  | badPadding
  /-- `IllegalCmd` (R124). -/
  | illegalCmd
  deriving DecidableEq, Repr

/-- Faults that stop the machine. There are none: no command hangs or traps, and neither access
primitive can fault (60_exceptions R130, 20_memory R53). An error of a command is a next state. -/
inductive Fault where
  deriving DecidableEq, Repr

/-- Why a step has no meaning. -/
inductive Refusal where
  /-- Raised by `exec` for an instruction that has no meaning yet; no arm raises it. Safe. -/
  | notModelled (mnemonic : String)
  /-- Raised by a transaction other than ReadStatus and Reset while `STATUS.BUSY = 1`: the spec gives
  it no step (20_memory R63, 93 U13). Safe: the model stops. -/
  | engineBusy
  /-- Raised by LoadKey, LoadIV or LoadData of a sequence longer than the buffer: the transaction
  cannot be presented (20_memory R56 to R58, 93 U15). Safe: the model stops. -/
  | operandTooLong
  /-- Raised by ReadOut before a command has completed (20_memory R62, 93 U14). Safe: the model stops. -/
  | noResult
  deriving DecidableEq, Repr

/-- The complete architectural state (10_state R20), and last the model's own fields: the host's
side (log entry 6) and the counter of the free values (log entry 4). -/
structure State where
  /-- `KEY`, 255 bytes (R23). -/
  key : Memory
  /-- `KEY_LEN`, 8 bits (R23). -/
  keyLen : Byte
  /-- `IV`, 255 bytes (R25). -/
  iv : Memory
  /-- `IV_LEN`, 8 bits (R25). -/
  ivLen : Byte
  /-- `BSZ`, 8 bits (R24). -/
  bsz : Byte
  /-- `DIN`, `MAXLEN` bytes (R26). -/
  din : Memory
  /-- `DIN_LEN`, 0 to `MAXLEN` (R26). -/
  dinLen : Nat
  /-- `CMD`, 8 bits (R27). -/
  cmd : Byte
  /-- `DOUT`, `MAXLEN` + 255 bytes (R28). -/
  dout : Memory
  /-- `DOUT_LEN`, 0 to `MAXLEN` + 255 (R28). -/
  doutLen : Nat
  /-- `STATUS`, 8 bits (R29). -/
  status : Byte
  /-- `BLK`, the index of the block being processed (R31; per-block view). -/
  blk : Nat
  /-- `NBLK`, the number of blocks of the current command (R31; per-block view). -/
  nblk : Nat
  /-- `CHAIN`, the previous ciphertext block in CBC (R32). -/
  chain : Block
  /-- `PADN`, the pad count of a padding encrypt (R33; per-block view). -/
  padn : Byte
  /-- MODEL: the transactions the host has yet to perform, next first. -/
  inbox : List Txn
  /-- MODEL: what the host's reads were answered, oldest first. -/
  replies : List Reply
  /-- MODEL: how many times the sequencer registers have been left unspecified. -/
  freeCount : Nat
  deriving DecidableEq, Repr

/-- The state after reset (10_state R34): all four buffers empty, `BSZ` = 16, `CMD` = 0, `STATUS` = 0.
`BLK`, `NBLK`, `CHAIN` and `PADN` are unspecified there; DESIGN CHOICE: zero (log entry 5). The host
has performed nothing (log entry 6). -/
def State.reset : State where
  key := []
  keyLen := 0
  iv := []
  ivLen := 0
  bsz := 16
  din := []
  dinLen := 0
  cmd := 0x00
  dout := []
  doutLen := 0
  status := 0x00
  blk := 0
  nblk := 0
  chain := Vector.ofFn fun _ => 0
  padn := 0
  inbox := []
  replies := []
  freeCount := 0

end Sys2Proof.Machine
end

