-- ==== Sys2Proof/Machine/Flags.lean ====
section
/-!
DEFINITION. The `STATUS` register: its fields, its values and the error codes
(spec/10_state.md R29, R30; spec/60_exceptions.md R120). The engine has no condition codes.
-/

namespace Sys2Proof.Machine

/-- `STATUS` with the given fields: bit 0 `BUSY`, bit 1 `DONE`, bits 4:2 `ERR`, bits 7:5 zero (10_state R29). -/
def statusWord (busy done : Bool) (err : BitVec 3) : Byte :=
  0#3 ++ err ++ BitVec.ofBool done ++ BitVec.ofBool busy

/-- `STATUS.BUSY`. -/
def State.busy (s : State) : Bool := s.status.getLsbD 0

/-- `STATUS.DONE`. -/
def State.done (s : State) : Bool := s.status.getLsbD 1

/-- `STATUS.ERR`. -/
def State.err (s : State) : BitVec 3 := s.status.extractLsb 4 2

/-- The code of an error in `STATUS.ERR` (60_exceptions R120); 0 is `OK`. -/
def CmdError.code : CmdError → BitVec 3
  | .invalidInput => 1
  | .badLength => 2
  | .badPadding => 3
  | .illegalCmd => 4

/-- `STATUS` while a command runs: `BUSY` alone (30_encoding R81). -/
def statusBusy : Byte := statusWord true false 0

/-- `STATUS` after a command that succeeded (30_encoding R84). -/
def statusOk : Byte := statusWord false true 0

/-- `STATUS` after a command that raised `e` (60_exceptions R127). -/
def statusError (e : CmdError) : Byte := statusWord false true e.code

/-- The error a code stands for: `some none` is `OK`; codes 5 to 7 are never produced (93 U18). -/
def errorOfCode (c : BitVec 3) : Option (Option CmdError) :=
  if c = 0 then some none
  else if c = 1 then some (some .invalidInput)
  else if c = 2 then some (some .badLength)
  else if c = 3 then some (some .badPadding)
  else if c = 4 then some (some .illegalCmd)
  else none

end Sys2Proof.Machine
end

