-- ==== Sys2Proof/Machine/Ops.lean ====
section
/-!
DEFINITION. The named operations over buffers and registers: MemRead and MemWrite
(spec/20_memory.md R53), the loads, the start of a command (spec/30_encoding.md R81), `return v`
(R84), `raise X` (spec/60_exceptions.md R127) and Reset (spec/70_reset_and_hazards.md R151).
-/

namespace Sys2Proof.Machine

/-- The byte listed at offset `a`, if one is. -/
def Memory.lookup (m : Memory) (a : Nat) : Option Byte :=
  match m with
  | [] => none
  | (b, v) :: rest => if a = b then some v else Memory.lookup rest a

/-- Give the byte at offset `a` the value `v`; the offsets stay in rising order. -/
def Memory.insert (m : Memory) (a : Nat) (v : Byte) : Memory :=
  match m with
  | [] => [(a, v)]
  | (b, w) :: rest =>
    if a < b then (a, v) :: (b, w) :: rest
    else if a = b then (a, v) :: rest
    else (b, w) :: Memory.insert rest a v

/-- Store a byte sequence from offset `off` upward (20_memory R53, MemWrite). -/
def Memory.write (m : Memory) (off : Nat) (v : ByteSeq) : Memory :=
  match v with
  | [] => m
  | b :: rest => Memory.write (Memory.insert m off b) (off + 1) rest

/-- The canonical form: offsets strictly rising. -/
def Memory.wf (m : Memory) : Bool := decide (m.Pairwise fun c d => c.1 < d.1)

/-- A length fits a buffer of capacity `cap`; `none` is an unbounded buffer (00_scope R8). -/
def withinCapacity (cap : Option Nat) (n : Nat) : Bool :=
  match cap with
  | none => true
  | some m => decide (n ≤ m)

/-- The buffer of a space (20_memory R50). -/
def State.space (s : State) : Space → Memory
  | .key => s.key
  | .iv => s.iv
  | .din => s.din
  | .dout => s.dout

/-- The number of valid bytes of a space: its length register (20_memory R50). -/
def State.validLen (s : State) : Space → Nat
  | .key => s.keyLen.toNat
  | .iv => s.ivLen.toNat
  | .din => s.dinLen
  | .dout => s.doutLen

/-- Replace the contents of one buffer; no other buffer is touched (20_memory R50). -/
def State.setSpace (s : State) (sp : Space) (m : Memory) : State :=
  match sp with
  | .key => { s with key := m }
  | .iv => { s with iv := m }
  | .din => { s with din := m }
  | .dout => { s with dout := m }

/-- The byte at offset `off` of a space; a byte nothing has given a value is a free value (log entry 3). -/
def State.byteAt (s : State) (sp : Space) (off : Nat) : Byte :=
  (Memory.lookup (s.space sp) off).getD (Config.unspecifiedByte sp off)

/-- `MemRead(space, off, n)` (20_memory R53). It changes no state. DESIGN CHOICE (log entry 18): R53 requires
`off + n` to be within the valid length and gives no meaning beyond it; here each byte beyond it is what
`byteAt` gives, and no command reads one in a state of the invariant. -/
def State.memRead (s : State) (sp : Space) (off n : Nat) : ByteSeq :=
  (List.range n).map fun j => s.byteAt sp (off + j)

/-- `MemWrite(space, off, len(v), v)` (20_memory R53). DESIGN CHOICE (log entry 18): R53 requires `off + len(v)` to be
within the capacity of the buffer and gives no meaning beyond it; here the bytes are stored unchecked, and no
command writes beyond the capacity in a state of the invariant. -/
def State.memWrite (s : State) (sp : Space) (off : Nat) (v : ByteSeq) : State :=
  s.setSpace sp (Memory.write (s.space sp) off v)

/-- Every byte of the buffer becomes unspecified (10_state R23, R25, R26, R28; log entry 3). -/
def State.discard (s : State) (sp : Space) : State := s.setSpace sp []

/-- Put a new sequence at offset 0 of a buffer; its old bytes become unspecified. -/
def State.fill (s : State) (sp : Space) (v : ByteSeq) : State := (s.discard sp).memWrite sp 0 v

/-- Effect of `LoadKey(v)` (20_memory R56). -/
def State.loadKey (s : State) (v : ByteSeq) : State :=
  { s.fill .key v with keyLen := BitVec.ofNat 8 v.length }

/-- Effect of `LoadIV(v)` (20_memory R57). -/
def State.loadIV (s : State) (v : ByteSeq) : State :=
  { s.fill .iv v with ivLen := BitVec.ofNat 8 v.length }

/-- Effect of `LoadData(v)` (20_memory R58). -/
def State.loadData (s : State) (v : ByteSeq) : State :=
  { s.fill .din v with dinLen := v.length }

/-- Effect of `SetBSZ(v)` (20_memory R59). -/
def State.setBSZ (s : State) (v : Byte) : State := { s with bsz := v }

/-- The start of every Issue: the word is latched, `DOUT_LEN` is 0 and `STATUS` is busy (30_encoding R81).
With `DOUT_LEN` = 0 every byte of `DOUT` is unspecified (10_state R28). -/
def State.accept (s : State) (w : Byte) : State :=
  { s.discard .dout with cmd := w, doutLen := 0, status := statusBusy }

/-- `return v`, the successful end of a command (30_encoding R84). -/
def State.returnResult (s : State) (v : ByteSeq) : State :=
  { s.memWrite .dout 0 v with doutLen := v.length, status := statusOk }

/-- `raise X`, the end of a command in an error (60_exceptions R127): no result, `DOUT` unspecified. It is
the one operation of error entry; there is no return from it (R128), the next Issue clears the error. -/
def State.raise (s : State) (e : CmdError) : State :=
  { s.discard .dout with doutLen := 0, status := statusError e }

/-- `BLK`, `NBLK` and `PADN` after a cipher command are unspecified (10_state R31, R33): free values. -/
def State.freeSequencer (s : State) : State :=
  { s with
    blk := Config.freeBlk s.freeCount
    nblk := Config.freeNblk s.freeCount
    padn := Config.freePadn s.freeCount
    freeCount := s.freeCount + 1 }

/-- After a CBC command `CHAIN` is unspecified too (10_state R32): a free value. -/
def State.freeSequencerAndChain (s : State) : State :=
  { s.freeSequencer with chain := Config.freeChain s.freeCount }

/-- Effect of `Reset()`: every piece of the engine's state at its reset value (70_reset_and_hazards R151).
The host's side is the host's; the counter of the free values goes on, so that they stay fresh. -/
def State.resetEngine (s : State) : State :=
  { State.reset with inbox := s.inbox, replies := s.replies, freeCount := s.freeCount }

/-- Answer a read of the host. Nothing of the engine changes (20_memory R61, R62, R68). -/
def State.answer (s : State) (r : Reply) : State := { s with replies := s.replies ++ [r] }

end Sys2Proof.Machine
end

