-- ==== Sys2Proof/Machine/Operands.lean ====
section
/-!
DEFINITION. The operands of the commands: whole sequences, blocks and their XOR, a block as the
primitive may take it, and the conditions of `InvalidInput` (spec/20_memory.md R52, R69; spec/30_encoding.md R74; spec/42_cbc.md R110;
spec/60_exceptions.md R121).
-/

namespace Sys2Proof.Machine

/-- `Blk(X, i) = X[16*i : 16*(i+1)]` for `i < len(X)/16` (20_memory R52). No rule asks for another `i`. -/
def blk (x : ByteSeq) (i : Nat) : Block := Vector.ofFn fun j => x.getD (16 * i + j.val) 0

/-- The blocks of a sequence in index order: `Blk(X, 0)`, ..., `Blk(X, len(X)/16 - 1)` (20_memory R52). -/
def blocks (x : ByteSeq) : List Block := (List.range (x.length / 16)).map (blk x)

/-- `b0 ++ b1 ++ ...`, the blocks' bytes in order (20_memory R51). -/
def joinBlocks (bs : List Block) : ByteSeq := bs.flatMap Vector.toList

/-- `x XOR y` on blocks: sixteen independent byte lanes (42_cbc R110). -/
def xorBlock (x y : Block) : Block := Vector.ofFn fun j => x[j] ^^^ y[j]

/-- A block presented as a 128-bit vector: byte `j` is bits `127-8j` to `120-8j` (20_memory R69). -/
def blockToWord (b : Block) : BitVec 128 :=
  b[0] ++ b[1] ++ b[2] ++ b[3] ++ b[4] ++ b[5] ++ b[6] ++ b[7] ++
  b[8] ++ b[9] ++ b[10] ++ b[11] ++ b[12] ++ b[13] ++ b[14] ++ b[15]

/-- The block a 128-bit vector presents (20_memory R69). -/
def wordToBlock (w : BitVec 128) : Block := Vector.ofFn fun j => w.extractLsb' (120 - 8 * j.val) 8

/-- A cipher given over 128-bit vectors, as a primitive (20_memory R69). -/
def primitiveOfWords (e d : BitVec 128 → BitVec 128 → BitVec 128) : Primitive :=
  ⟨fun k b => wordToBlock (e (blockToWord k) (blockToWord b)),
   fun k c => wordToBlock (d (blockToWord k) (blockToWord c))⟩

/-- The data operand, `DIN[0:DIN_LEN]` (10_state R26). -/
def State.data (s : State) : ByteSeq := s.memRead .din 0 s.dinLen

/-- The block a buffer holds from offset `off`: `MemRead(space, off, 16)` (20_memory R53, R55). -/
def State.readBlock (s : State) (sp : Space) (off : Nat) : Block :=
  Vector.ofFn fun j => s.byteAt sp (off + j.val)

/-- `k = KEY[0:16]`, used once `KEY_LEN = 16` has been checked (10_state R23). -/
def State.keyBlock (s : State) : Block := s.readBlock .key 0

/-- `iv = IV[0:16]`, used once `IV_LEN = 16` has been checked (10_state R25). -/
def State.ivBlock (s : State) : Block := s.readBlock .iv 0

/-- What the host can read of the result: `DOUT[0:DOUT_LEN]` (10_state R28, 20_memory R62). -/
def State.out (s : State) : ByteSeq := s.memRead .dout 0 s.doutLen

/-- The conditions of `InvalidInput`, command by command (60_exceptions R121). -/
def invalidInput (i : Instr) (s : State) : Bool :=
  match i with
  | .pad | .unpad => s.bsz == 0
  | .ecbEncrypt p => s.keyLen != 16 || (!p && s.dinLen % 16 != 0)
  | .ecbDecrypt _ => s.keyLen != 16 || s.dinLen % 16 != 0
  | .cbcEncrypt p => s.keyLen != 16 || s.ivLen != 16 || (!p && s.dinLen % 16 != 0)
  | .cbcDecrypt => s.keyLen != 16 || s.ivLen != 16 || s.dinLen % 16 != 0

/-- The RC result the host has obtained (20_memory R62): the bytes, or the error, or nothing while no
command has completed. -/
def State.result (s : State) : Option (Except CmdError ByteSeq) :=
  if s.done then
    match errorOfCode s.err with
    | some none => some (.ok s.out)
    | some (some e) => some (.error e)
    | none => none
  else none

end Sys2Proof.Machine
end

