-- ==== Sys2Proof/Machine/Padding.lean ====
section
/-!
DEFINITION. PKCS#7 padding and the commands PAD and UNPAD (spec/40_padding.md).
-/

namespace Sys2Proof.Machine

/-- The pad count `n = bs - (len mod bs)` (40_padding R90). -/
def padCount (len bs : Nat) : Nat := bs - len % bs

/-- `pad(data, bs)`: append `n` bytes of value `n` (40_padding R90), for `1 ≤ bs ≤ 255`. -/
def padBytes (data : ByteSeq) (bs : Nat) : ByteSeq :=
  data ++ List.replicate (padCount data.length bs) (BitVec.ofNat 8 (padCount data.length bs))

/-- RC's `PaddingError`: the two ways `unpad` fails (40_padding R91). -/
inductive PaddingError where
  | badLength
  | badPadding
  deriving DecidableEq, Repr

/-- The command error a padding error is raised as (60_exceptions R120). -/
def PaddingError.toCmdError : PaddingError → CmdError
  | .badLength => .badLength
  | .badPadding => .badPadding

/-- `unpad(data, bs)` with its checks in the order (a) to (e) of 40_padding R91. -/
def unpadBytes (data : ByteSeq) (bs : Nat) : Except PaddingError ByteSeq :=
  match data.getLast? with
  | none => .error .badLength
  | some last =>
    let n := last.toNat
    if n = 0 ∨ bs < n then .error .badLength
    else if data.length < n then .error .badLength
    else if (data.drop (data.length - n)).any (· != last) then .error .badPadding
    else .ok (data.take (data.length - n))

/-- End a command as its result says: `return v`, or `raise` of the padding error (40_padding R93, 41_ecb R101). -/
def State.deliver (s : State) (r : Except PaddingError ByteSeq) : State :=
  match r with
  | .ok v => s.returnResult v
  | .error e => s.raise e.toCmdError

/-- `PAD` (40_padding R92). -/
def execPad (s : State) : Host.Outcome State Fault Refusal :=
  if s.bsz = 0 then .next (s.raise .invalidInput)
  else .next (s.returnResult (padBytes s.data s.bsz.toNat))

/-- `UNPAD` (40_padding R93). -/
def execUnpad (s : State) : Host.Outcome State Fault Refusal :=
  if s.bsz = 0 then .next (s.raise .invalidInput)
  else .next (s.deliver (unpadBytes s.data s.bsz.toNat))

end Sys2Proof.Machine
end

