-- ==== Sys2Proof/Machine/Ecb.lean ====
section
/-!
DEFINITION. The ECB commands, for any primitive, and for the engine's own (spec/41_ecb.md).
-/

namespace Sys2Proof.Machine

/-- The source sequence of an encrypt command: the data, padded to 16 when `P = 1` (41_ecb R100, 42_cbc R111). -/
def encryptSource (p : Bool) (data : ByteSeq) : ByteSeq :=
  if p then padBytes data 16 else data

/-- `E(k, Blk(src, 0)) ++ E(k, Blk(src, 1)) ++ ...` (41_ecb R100). -/
def ecbEncryptBytes (P : Primitive) (k : Block) (src : ByteSeq) : ByteSeq :=
  joinBlocks ((blocks src).map (P.E k))

/-- `D(k, Blk(data, 0)) ++ D(k, Blk(data, 1)) ++ ...` (41_ecb R101). -/
def ecbDecryptBytes (P : Primitive) (k : Block) (data : ByteSeq) : ByteSeq :=
  joinBlocks ((blocks data).map (P.D k))

/-- `ECB_ENCRYPT` over the primitive `P` (41_ecb R100). -/
def ecbEncryptWith (P : Primitive) (p : Bool) (s : State) : Host.Outcome State Fault Refusal :=
  if s.keyLen ≠ 16 then .next (s.raise .invalidInput).freeSequencer
  else if p = false ∧ s.dinLen % 16 ≠ 0 then .next (s.raise .invalidInput).freeSequencer
  else .next (s.returnResult (ecbEncryptBytes P s.keyBlock (encryptSource p s.data))).freeSequencer

/-- `ECB_DECRYPT` over the primitive `P` (41_ecb R101): with `P = 1` the padding is removed after every
block has been decrypted, and a padding error delivers nothing. -/
def ecbDecryptWith (P : Primitive) (p : Bool) (s : State) : Host.Outcome State Fault Refusal :=
  if s.keyLen ≠ 16 then .next (s.raise .invalidInput).freeSequencer
  else if s.dinLen % 16 ≠ 0 then .next (s.raise .invalidInput).freeSequencer
  else
    let pt := ecbDecryptBytes P s.keyBlock s.data
    if p then .next (s.deliver (unpadBytes pt 16)).freeSequencer
    else .next (s.returnResult pt).freeSequencer

/-- `ECB_ENCRYPT` of the engine. -/
def execEcbEncrypt (p : Bool) (s : State) : Host.Outcome State Fault Refusal :=
  ecbEncryptWith Config.primitive p s

/-- `ECB_DECRYPT` of the engine. -/
def execEcbDecrypt (p : Bool) (s : State) : Host.Outcome State Fault Refusal :=
  ecbDecryptWith Config.primitive p s

end Sys2Proof.Machine
end

