-- ==== Sys2Proof/Machine/Cbc.lean ====
section
/-!
DEFINITION. The CBC commands, for any primitive, and for the engine's own (spec/42_cbc.md).
-/

namespace Sys2Proof.Machine

/-- The block loop of CBC_ENCRYPT in index order: `Ci = E(k, Pi XOR C(i-1))`; `c` is `C(i-1)` (42_cbc R111). -/
def cbcEncryptBlocks (P : Primitive) (k : Block) (c : Block) : List Block → List Block
  | [] => []
  | x :: rest => P.E k (xorBlock x c) :: cbcEncryptBlocks P k (P.E k (xorBlock x c)) rest

/-- The block loop of CBC_DECRYPT in index order: `Pi = D(k, Ci) XOR C(i-1)` (42_cbc R112). -/
def cbcDecryptBlocks (P : Primitive) (k : Block) (c : Block) : List Block → List Block
  | [] => []
  | x :: rest => xorBlock (P.D k x) c :: cbcDecryptBlocks P k x rest

/-- `cbc_encrypt` of a whole sequence, `C(-1) = iv` (42_cbc R111). -/
def cbcEncryptBytes (P : Primitive) (k iv : Block) (src : ByteSeq) : ByteSeq :=
  joinBlocks (cbcEncryptBlocks P k iv (blocks src))

/-- `cbc_decrypt` of a whole sequence, `C(-1) = iv`; never unpadded (42_cbc R112, 90_conflicts C1). -/
def cbcDecryptBytes (P : Primitive) (k iv : Block) (data : ByteSeq) : ByteSeq :=
  joinBlocks (cbcDecryptBlocks P k iv (blocks data))

/-- `CBC_ENCRYPT` over the primitive `P` (42_cbc R111). `IV` is not updated (R115). -/
def cbcEncryptWith (P : Primitive) (p : Bool) (s : State) : Host.Outcome State Fault Refusal :=
  if s.keyLen ≠ 16 then .next (s.raise .invalidInput).freeSequencerAndChain
  else if s.ivLen ≠ 16 then .next (s.raise .invalidInput).freeSequencerAndChain
  else if p = false ∧ s.dinLen % 16 ≠ 0 then .next (s.raise .invalidInput).freeSequencerAndChain
  else .next (s.returnResult
    (cbcEncryptBytes P s.keyBlock s.ivBlock (encryptSource p s.data))).freeSequencerAndChain

/-- `CBC_DECRYPT` over the primitive `P` (42_cbc R112). -/
def cbcDecryptWith (P : Primitive) (s : State) : Host.Outcome State Fault Refusal :=
  if s.keyLen ≠ 16 then .next (s.raise .invalidInput).freeSequencerAndChain
  else if s.ivLen ≠ 16 then .next (s.raise .invalidInput).freeSequencerAndChain
  else if s.dinLen % 16 ≠ 0 then .next (s.raise .invalidInput).freeSequencerAndChain
  else .next (s.returnResult (cbcDecryptBytes P s.keyBlock s.ivBlock s.data)).freeSequencerAndChain

/-- `CBC_ENCRYPT` of the engine. -/
def execCbcEncrypt (p : Bool) (s : State) : Host.Outcome State Fault Refusal :=
  cbcEncryptWith Config.primitive p s

/-- `CBC_DECRYPT` of the engine. -/
def execCbcDecrypt (s : State) : Host.Outcome State Fault Refusal :=
  cbcDecryptWith Config.primitive s

end Sys2Proof.Machine
end

