-- ==== Sys2Proof/Machine/Dispatch.lean ====
section
/-!
DEFINITION. One arm per command (spec/30_encoding.md R81): the command's own rule, run on the state Issue
has prepared.
-/

namespace Sys2Proof.Machine

def exec (i : Instr) (s : State) : Host.Outcome State Fault Refusal :=
  match i with
  | .pad => Sys2Proof.Machine.execPad s
  | .unpad => Sys2Proof.Machine.execUnpad s
  | .ecbEncrypt p => Sys2Proof.Machine.execEcbEncrypt p s
  | .ecbDecrypt p => Sys2Proof.Machine.execEcbDecrypt p s
  | .cbcEncrypt p => Sys2Proof.Machine.execCbcEncrypt p s
  | .cbcDecrypt => Sys2Proof.Machine.execCbcDecrypt s

end Sys2Proof.Machine
end

