-- ==== Sys2Proof/Machine/Transactions.lean ====
section
/-!
DEFINITION. The eight host transactions (spec/20_memory.md R56 to R63; spec/70_reset_and_hazards.md R150).
-/

namespace Sys2Proof.Machine

/-- The operand of the transaction fits its buffer: 255 bytes for `KEY` and `IV` (00_scope R9),
`MAXLEN` bytes for `DIN` (R8). A transaction that does not fit cannot be presented. -/
def Txn.fits : Txn → Bool
  | .loadKey v => withinCapacity (some 255) v.length
  | .loadIV v => withinCapacity (some 255) v.length
  | .loadData v => withinCapacity Config.MAXLEN v.length
  | .setBSZ _ | .issue _ | .readStatus | .readOut | .reset => true

/-- What `Issue(w)` does once it is accepted: latch the word, decode it, run the command to completion,
or raise `IllegalCmd` if the word is reserved (30_encoding R81, 60_exceptions R124). -/
def issueCommand (w : Byte) (s : State) : Host.Outcome State Fault Refusal :=
  match decode w with
  | .command i => exec i (s.accept w)
  | .reserved _ => .next ((s.accept w).raise .illegalCmd)

/-- A transaction that requires `STATUS.BUSY = 0`; while busy it has no step (20_memory R63). -/
def whenIdle (s : State) (o : Host.Outcome State Fault Refusal) : Host.Outcome State Fault Refusal :=
  if s.busy then .refused .engineBusy else o

/-- A load, refused when its operand is longer than the buffer (20_memory R56 to R58). -/
def whenFits (t : Txn) (o : Host.Outcome State Fault Refusal) : Host.Outcome State Fault Refusal :=
  if t.fits then o else .refused .operandTooLong

/-- One host transaction. ReadStatus and Reset are accepted at any time; the others need
`STATUS.BUSY = 0` (20_memory R63), and ReadOut needs `STATUS.DONE = 1` (R62). -/
def transact (t : Txn) (s : State) : Host.Outcome State Fault Refusal :=
  match t with
  | .loadKey v => whenIdle s (whenFits t (.next (s.loadKey v)))
  | .loadIV v => whenIdle s (whenFits t (.next (s.loadIV v)))
  | .loadData v => whenIdle s (whenFits t (.next (s.loadData v)))
  | .setBSZ v => whenIdle s (.next (s.setBSZ v))
  | .issue w => whenIdle s (issueCommand w s)
  | .readStatus => .next (s.answer (.status s.status))
  | .readOut => whenIdle s (if s.done then .next (s.answer (.out s.doutLen s.out)) else .refused .noResult)
  | .reset => .next s.resetEngine

/-- Perform the host's next transaction. With none left the engine is idle and nothing changes
(70_reset_and_hazards R157; log entry 7). -/
def nextTransaction (s : State) : Host.Outcome State Fault Refusal :=
  match s.inbox with
  | [] => .next s
  | t :: rest => transact t { s with inbox := rest }

/-- Make `Issue(w)` the host's next transaction, to an engine that is not busy (20_memory R60). -/
def placeCommand (s : State) (w : Byte) : State :=
  { s with inbox := .issue w :: s.inbox, status := s.status &&& 0xFE }

end Sys2Proof.Machine
end

