-- ==== Sys2Proof/Machine/Step.lean ====
section
/-!
DEFINITION. One step: the host's next transaction, a whole command when it is an Issue (spec/00_scope.md R12).
-/

namespace Sys2Proof.Machine

/-- One step of the machine. -/
def step : State → Host.Outcome State Fault Refusal := nextTransaction

/-- `s` with the command whose word has the bits `w` as the host's next transaction, issued to an
engine that is not busy. The engine fetches no commands from memory (10_state R22, 20_memory R67): a
command word arrives in the Issue transaction itself, so this stands for the host presenting it. A
command word is one byte whatever `nbits` says (30_encoding R70). -/
def State.withFetchWord (s : State) (_nbits w : Nat) : State := placeCommand s (BitVec.ofNat 8 w)

end Sys2Proof.Machine
end

