-- ==== Sys2Proof/Machine/Script.lean ====
section
/-!
DEFINITION. Host scripts and the two pseudo-instructions (spec/30_encoding.md R78, R79).
-/

namespace Sys2Proof.Machine

/-- A line of a host script (30_encoding R78, R79). -/
inductive ScriptLine where
  /-- A transaction line: LOADKEY, LOADIV, LOADDATA, SETBSZ, ISSUE, READSTATUS, READOUT, RESET. -/
  | perform (t : Txn)
  /-- A command mnemonic: Issue of its word. -/
  | command (i : Instr)
  /-- `MOVEOUT`. -/
  | moveOut
  /-- `CBC_DECRYPT_UNPAD`. -/
  | cbcDecryptUnpad
  deriving DecidableEq, Repr

/-- Where a script stands after some of its lines. -/
inductive ScriptOutcome where
  /-- The script goes on from this state. -/
  | goesOn (s : State)
  /-- MOVEOUT found an error: the script stops (30_encoding R79). -/
  | stopped (s : State)
  /-- A transaction had no step. -/
  | refused (r : Refusal)
  /-- A transaction faulted (none does). -/
  | faulted (f : Fault)
  deriving Repr

/-- The outcome of one transaction of a script. -/
def ScriptOutcome.ofStep : Host.Outcome State Fault Refusal → ScriptOutcome
  | .next s => .goesOn s
  | .fault f => .faulted f
  | .refused r => .refused r

/-- Go on with the script unless it has ended. -/
def ScriptOutcome.andThen (o : ScriptOutcome) (f : State → ScriptOutcome) : ScriptOutcome :=
  match o with
  | .goesOn s => f s
  | .stopped s => .stopped s
  | .refused r => .refused r
  | .faulted e => .faulted e

/-- One transaction of a script. -/
def scriptTxn (t : Txn) (s : State) : ScriptOutcome := .ofStep (transact t s)

/-- `MOVEOUT`: READSTATUS; if `ERR = 0`, READOUT and LOADDATA of what it gave; else the script stops
(30_encoding R79). -/
def moveOut (s : State) : ScriptOutcome :=
  (scriptTxn .readStatus s).andThen fun s1 =>
    if s1.err ≠ 0 then .stopped s1
    else (scriptTxn .readOut s1).andThen fun s2 => scriptTxn (.loadData s2.out) s2

/-- `CBC_DECRYPT_UNPAD`: CBC_DECRYPT; MOVEOUT; SETBSZ 16; UNPAD (30_encoding R79). -/
def cbcDecryptUnpad (s : State) : ScriptOutcome :=
  (scriptTxn (.issue (encode .cbcDecrypt)) s).andThen fun s1 =>
    (moveOut s1).andThen fun s2 =>
      (scriptTxn (.setBSZ 16) s2).andThen (scriptTxn (.issue (encode .unpad)))

/-- One line of a script. -/
def scriptLine (l : ScriptLine) (s : State) : ScriptOutcome :=
  match l with
  | .perform t => scriptTxn t s
  | .command i => scriptTxn (.issue (encode i)) s
  | .moveOut => moveOut s
  | .cbcDecryptUnpad => cbcDecryptUnpad s

/-- A whole script, line by line. -/
def runScript (ls : List ScriptLine) (s : State) : ScriptOutcome :=
  match ls with
  | [] => .goesOn s
  | l :: rest => (scriptLine l s).andThen (runScript rest)

/-- The encoding of a script: the command words it issues, one byte each (30_encoding R78). DESIGN CHOICE (log entry
12): the words of all its lines count, of lines after a MOVEOUT that stops the run too (R79), so that the encoding
depends on the script's text and on no run. -/
def scriptWords : List ScriptLine → ByteSeq
  | [] => []
  | .perform (.issue w) :: rest => w :: scriptWords rest
  | .perform _ :: rest => scriptWords rest
  | .command i :: rest => encode i :: scriptWords rest
  | .moveOut :: rest => scriptWords rest
  | .cbcDecryptUnpad :: rest => encode .cbcDecrypt :: encode .unpad :: scriptWords rest

end Sys2Proof.Machine
end

