-- ==== Sys2Proof/Machine/ScriptText.lean ====
section
/-!
DEFINITION. The text of a host script, one line at a time (spec/30_encoding.md R78, R79). A line is given as its
characters; a line that is none of the rules' is rejected.
-/

namespace Sys2Proof.Machine

/-- A token of a line: a word, or a quoted string without its quotes. -/
inductive Token where
  | word (w : List Char)
  | quoted (w : List Char)
  deriving DecidableEq, Repr

/-- Cut a line into tokens; `;` begins a comment to the end of the line. `acc` is the word begun, last
character first; `inside` says that a quote is open. An open quote at the end of the line is no token list. DESIGN CHOICE (log entry 12): no
blank need part a word from a quoted string beside it, where 30_encoding R78 is silent. -/
def tokens (inside : Bool) (acc : List Char) (line : List Char) : Option (List Token) :=
  let close : List Token := if acc.isEmpty then [] else [.word acc.reverse]
  match line with
  | [] => if inside then none else some close
  | ch :: rest =>
    if inside then
      if ch = '"' then (tokens false [] rest).map (.quoted acc.reverse :: ·)
      else tokens true (ch :: acc) rest
    else if ch = ';' then some close
    else if ch = '"' then (tokens true [] rest).map (close ++ ·)
    else if ch = ' ' ∨ ch = '\t' then (tokens false [] rest).map (close ++ ·)
    else tokens false (ch :: acc) rest

/-- The value of a hexadecimal digit, of either case. -/
def hexDigit (ch : Char) : Option Nat :=
  let n := ch.toNat
  if 48 ≤ n ∧ n ≤ 57 then some (n - 48)
  else if 65 ≤ n ∧ n ≤ 70 then some (n - 55)
  else if 97 ≤ n ∧ n ≤ 102 then some (n - 87)
  else none

/-- A string of hexadecimal digit pairs, first byte first. -/
def hexBytes : List Char → Option ByteSeq
  | [] => some []
  | [_] => none
  | a :: b :: rest =>
    match hexDigit a, hexDigit b, hexBytes rest with
    | some x, some y, some r => some (BitVec.ofNat 8 (16 * x + y) :: r)
    | _, _, _ => none

/-- One byte per ASCII character, no terminator. -/
def asciiBytes (cs : List Char) : Option ByteSeq :=
  if cs.all fun ch => ch.toNat < 128 then some (cs.map fun ch => BitVec.ofNat 8 ch.toNat) else none

/-- `<bytes>`: digit pairs, a quoted ASCII string, or `empty`. A word of no digits does not arise. -/
def bytesOperand : Token → Option ByteSeq
  | .quoted w => asciiBytes w
  | .word w => if w = ['e', 'm', 'p', 't', 'y'] then some [] else hexBytes w

/-- A decimal number, digit by digit; `n` is the value so far. -/
def decimal (n : Nat) : List Char → Option Nat
  | [] => some n
  | ch :: rest => if 48 ≤ ch.toNat ∧ ch.toNat ≤ 57 then decimal (10 * n + (ch.toNat - 48)) rest else none

/-- `<decimal 0..255>`. A larger value is no operand (93 U16). -/
def decimalByte : Token → Option Byte
  | .quoted _ => none
  | .word w => (decimal 0 w).bind fun n => if n < 256 then some (BitVec.ofNat 8 n) else none

/-- `<hex byte>`: one digit pair. -/
def hexByte : Token → Option Byte
  | .quoted _ => none
  | .word w =>
    match hexBytes w with
    | some [b] => some b
    | _ => none

/-- `pad=<0|1>`. -/
def padOperand : Token → Option Bool
  | .quoted _ => none
  | .word w =>
    if w = ['p', 'a', 'd', '=', '0'] then some false
    else if w = ['p', 'a', 'd', '=', '1'] then some true
    else none

/-- The lines without an operand (30_encoding R78, R79). -/
def plainLine (w : List Char) : Option ScriptLine :=
  if w = ['P', 'A', 'D'] then some (.command .pad)
  else if w = ['U', 'N', 'P', 'A', 'D'] then some (.command .unpad)
  else if w = ['C', 'B', 'C', '_', 'D', 'E', 'C', 'R', 'Y', 'P', 'T'] then some (.command .cbcDecrypt)
  else if w = ['R', 'E', 'A', 'D', 'S', 'T', 'A', 'T', 'U', 'S'] then some (.perform .readStatus)
  else if w = ['R', 'E', 'A', 'D', 'O', 'U', 'T'] then some (.perform .readOut)
  else if w = ['R', 'E', 'S', 'E', 'T'] then some (.perform .reset)
  else if w = ['M', 'O', 'V', 'E', 'O', 'U', 'T'] then some .moveOut
  else if w = ['C', 'B', 'C', '_', 'D', 'E', 'C', 'R', 'Y', 'P', 'T', '_', 'U', 'N', 'P', 'A', 'D'] then some .cbcDecryptUnpad
  else none

/-- The lines with one operand (30_encoding R78). -/
def operandLine (w : List Char) (t : Token) : Option ScriptLine :=
  if w = ['L', 'O', 'A', 'D', 'K', 'E', 'Y'] then (bytesOperand t).map fun v => .perform (.loadKey v)
  else if w = ['L', 'O', 'A', 'D', 'I', 'V'] then (bytesOperand t).map fun v => .perform (.loadIV v)
  else if w = ['L', 'O', 'A', 'D', 'D', 'A', 'T', 'A'] then (bytesOperand t).map fun v => .perform (.loadData v)
  else if w = ['S', 'E', 'T', 'B', 'S', 'Z'] then (decimalByte t).map fun v => .perform (.setBSZ v)
  else if w = ['I', 'S', 'S', 'U', 'E'] then (hexByte t).map fun v => .perform (.issue v)
  else if w = ['E', 'C', 'B', '_', 'E', 'N', 'C', 'R', 'Y', 'P', 'T'] then (padOperand t).map fun p => .command (.ecbEncrypt p)
  else if w = ['E', 'C', 'B', '_', 'D', 'E', 'C', 'R', 'Y', 'P', 'T'] then (padOperand t).map fun p => .command (.ecbDecrypt p)
  else if w = ['C', 'B', 'C', '_', 'E', 'N', 'C', 'R', 'Y', 'P', 'T'] then (padOperand t).map fun p => .command (.cbcEncrypt p)
  else none

/-- The script lines one line of text stands for: one, or none when it is blank or a comment. -/
def readLine (line : List Char) : Option (List ScriptLine) :=
  match tokens false [] line with
  | some [] => some []
  | some [.word w] => (plainLine w).map ([·])
  | some [.word w, t] => (operandLine w t).map ([·])
  | some _ => none
  | none => none

/-- A whole script text, line by line. -/
def readScript : List (List Char) → Option (List ScriptLine)
  | [] => some []
  | l :: rest =>
    match readLine l, readScript rest with
    | some a, some b => some (a ++ b)
    | _, _ => none

end Sys2Proof.Machine
end

