-- ==== Sys2Proof/Machine/Sequencer.lean ====
section
/-!
DEFINITION. The per-block view of a cipher command: CHECK, SETUP, RUN, FINISH over the sequencer registers
`BLK`, `NBLK`, `PADN` and `CHAIN` (spec/30_encoding.md R82, R83). The step of the machine runs a command
whole (spec/20_memory.md R60); this view is what an implementation does, and is stated to agree with it.
-/

namespace Sys2Proof.Machine

/-- The pad count of an encrypt with `P = 1`, 0 for every other command (10_state R33, 30_encoding R82). -/
def setupPadCount (i : Instr) (s : State) : Nat :=
  match i with
  | .ecbEncrypt true | .cbcEncrypt true => padCount s.dinLen 16
  | .pad | .unpad | .ecbEncrypt false | .ecbDecrypt _ | .cbcEncrypt false | .cbcDecrypt => 0

/-- The command chains blocks through `CHAIN` (10_state R32). -/
def usesChain : Instr → Bool
  | .cbcEncrypt _ | .cbcDecrypt => true
  | .pad | .unpad | .ecbEncrypt _ | .ecbDecrypt _ => false

/-- SETUP (30_encoding R82). -/
def seqSetup (i : Instr) (s : State) : State :=
  { s with
    padn := BitVec.ofNat 8 (setupPadCount i s)
    nblk := (s.dinLen + setupPadCount i s) / 16
    blk := 0
    chain := if usesChain i then s.ivBlock else s.chain }

/-- Byte `j` of `Src`: the data, then the padding bytes (20_memory R52). -/
def State.srcByte (s : State) (j : Nat) : Byte := if j < s.dinLen then s.byteAt .din j else s.padn

/-- `Blk(Src, i)` (20_memory R52). -/
def State.srcBlock (s : State) (i : Nat) : Block := Vector.ofFn fun j => s.srcByte (16 * i + j.val)

/-- The block step writes `y` to `DOUT[16*BLK : 16*BLK+16]` and counts the block (30_encoding R82, R83). -/
def State.putBlock (s : State) (y : Block) : State :=
  { s.memWrite .dout (16 * s.blk) y.toList with blk := s.blk + 1 }

/-- The block step for block index `BLK`, by command (30_encoding R83). PAD and UNPAD have none. -/
def seqBlock (P : Primitive) (i : Instr) (s : State) : State :=
  match i with
  | .pad | .unpad => s
  | .ecbEncrypt _ => s.putBlock (P.E s.keyBlock (s.srcBlock s.blk))
  | .ecbDecrypt _ => s.putBlock (P.D s.keyBlock (s.readBlock .din (16 * s.blk)))
  | .cbcEncrypt _ =>
    let y := P.E s.keyBlock (xorBlock (s.srcBlock s.blk) s.chain)
    { s.putBlock y with chain := y }
  | .cbcDecrypt =>
    let x := s.readBlock .din (16 * s.blk)
    { s.putBlock (xorBlock (P.D s.keyBlock x) s.chain) with chain := x }

/-- RUN: while `BLK < NBLK`, one block step. The loop is counted: `fuel` is the bound fixed before it
starts (30_encoding R82, 70_reset_and_hazards R158). -/
def seqRun (P : Primitive) (i : Instr) (fuel : Nat) (s : State) : State :=
  match fuel with
  | 0 => s
  | n + 1 => if s.blk < s.nblk then seqRun P i n (seqBlock P i s) else s

/-- FINISH (30_encoding R82): `ECB_DECRYPT` with `P = 1` unpads what was decrypted; then completion. -/
def seqFinish (i : Instr) (s : State) : State :=
  match i with
  | .ecbDecrypt true => s.deliver (unpadBytes (s.memRead .dout 0 (16 * s.nblk)) 16)
  | .pad | .unpad | .ecbEncrypt _ | .ecbDecrypt false | .cbcEncrypt _ | .cbcDecrypt =>
    s.returnResult (s.memRead .dout 0 (16 * s.nblk))

/-- The RUN phase of a command from its operands: SETUP, then the whole block loop. -/
def seqProcess (P : Primitive) (i : Instr) (s : State) : State :=
  seqRun P i (seqSetup i s).nblk (seqSetup i s)

/-- A cipher command in the per-block view (30_encoding R82). PAD and UNPAD have no blocks (10_state R31). -/
def seqCommand (P : Primitive) (i : Instr) (s : State) : State :=
  if invalidInput i s then s.raise .invalidInput else seqFinish i (seqProcess P i s)

end Sys2Proof.Machine
end

