-- ==== Sys2Proof/Safety.lean ====
section
/-!
DEFINITION. What counts as a good state, what the host can see, and the relations between states that
statements use.
-/

namespace Sys2Proof.Machine

/-- The buffer lists exactly the bytes at offsets 0 to `n` - 1: every valid byte has a value and every
other byte is unspecified (20_memory R50). Such a buffer is in canonical form. -/
def Memory.Holds (m : Memory) (n : Nat) : Prop := m.map Prod.fst = List.range n

/-- A `STATUS` value of a state between transactions: after reset, or after a completed command
(10_state R29, 20_memory R60). -/
def LegalStatus (v : Byte) : Prop :=
  v = 0x00 ∨ v = 0x02 ∨ v = 0x06 ∨ v = 0x0A ∨ v = 0x0E ∨ v = 0x12

/-- The invariant of the engine between transactions: the length registers say exactly which bytes of
the buffers have a value (20_memory R50), lengths within capacity (10_state R20), `STATUS` legal (R29), and
no result without a successful command (10_state R28, 60_exceptions R127). -/
structure State.Inv (s : State) : Prop where
  key : Memory.Holds s.key s.keyLen.toNat
  iv : Memory.Holds s.iv s.ivLen.toNat
  din : Memory.Holds s.din s.dinLen
  dout : Memory.Holds s.dout s.doutLen
  dinLen : withinCapacity Config.MAXLEN s.dinLen = true
  doutLen : withinCapacity Config.doutCapacity s.doutLen = true
  status : LegalStatus s.status
  result : s.status ≠ 0x02 → s.doutLen = 0

/-- The host-visible part of two states is the same: `STATUS`, `DOUT_LEN` and `DOUT[0:DOUT_LEN]`
(10_state R20, R36). -/
def SameVisible (s t : State) : Prop := s.status = t.status ∧ s.doutLen = t.doutLen ∧ s.out = t.out

/-- Two states present the same operands: the values a command's outcome may depend on
(70_reset_and_hazards R154). -/
structure SameOperands (s t : State) : Prop where
  key : s.memRead .key 0 s.keyLen.toNat = t.memRead .key 0 t.keyLen.toNat
  keyLen : s.keyLen = t.keyLen
  iv : s.memRead .iv 0 s.ivLen.toNat = t.memRead .iv 0 t.ivLen.toNat
  ivLen : s.ivLen = t.ivLen
  bsz : s.bsz = t.bsz
  data : s.data = t.data
  dinLen : s.dinLen = t.dinLen

/-- The operand registers and buffers of two states are the same (10_state R38). -/
structure OperandsKept (s t : State) : Prop where
  key : t.key = s.key
  keyLen : t.keyLen = s.keyLen
  iv : t.iv = s.iv
  ivLen : t.ivLen = s.ivLen
  bsz : t.bsz = s.bsz
  din : t.din = s.din
  dinLen : t.dinLen = s.dinLen

/-- The result registers of two states are the same (10_state R38). -/
structure ResultKept (s t : State) : Prop where
  dout : t.dout = s.dout
  doutLen : t.doutLen = s.doutLen
  status : t.status = s.status
  cmd : t.cmd = s.cmd

/-- The sequencer registers of two states are the same (10_state R31 to R33). -/
structure SequencerKept (s t : State) : Prop where
  blk : t.blk = s.blk
  nblk : t.nblk = s.nblk
  padn : t.padn = s.padn
  chain : t.chain = s.chain
  freeCount : t.freeCount = s.freeCount

/-- The host's side of two states is the same. -/
structure HostSideKept (s t : State) : Prop where
  inbox : t.inbox = s.inbox
  replies : t.replies = s.replies

/-- A command that applies the primitive: field `C` of its word (30_encoding R71). -/
def isCipher : Instr → Bool
  | .pad | .unpad => false
  | .ecbEncrypt _ | .ecbDecrypt _ | .cbcEncrypt _ | .cbcDecrypt => true

/-- The commands over an arbitrary primitive; the engine's are these over `Config.primitive`
(00_scope R11: the primitive is a parameter of the model). -/
def commandWith (P : Primitive) (i : Instr) (s : State) : Host.Outcome State Fault Refusal :=
  match i with
  | .pad => execPad s
  | .unpad => execUnpad s
  | .ecbEncrypt p => ecbEncryptWith P p s
  | .ecbDecrypt p => ecbDecryptWith P p s
  | .cbcEncrypt p => cbcEncryptWith P p s
  | .cbcDecrypt => cbcDecryptWith P s

/-- The state a command leaves when it succeeds with result `v` (30_encoding R84). -/
structure Delivered (v : ByteSeq) (t : State) : Prop where
  status : t.status = 0x02
  doutLen : t.doutLen = v.length
  out : t.out = v

/-- The state a command leaves when it ends in the error `e` (60_exceptions R127). -/
structure Raised (e : CmdError) (t : State) : Prop where
  status : t.status = statusWord false true e.code
  doutLen : t.doutLen = 0
  out : t.out = []

/-- What a command leaves unchanged (30_encoding R74): the operands, `CMD`, the host's side; `CHAIN` unless it
is a CBC command (10_state R32); all sequencer registers if it is PAD or UNPAD (10_state R31). -/
structure CommandFrame (i : Instr) (s t : State) : Prop where
  operands : OperandsKept s t
  cmd : t.cmd = s.cmd
  hostSide : HostSideKept s t
  chain : usesChain i = false → t.chain = s.chain
  sequencer : isCipher i = false → SequencerKept s t

/-- The `STATUS` of a command that unpads the sequence `x` with block size `bs`: `BadLength` before
`BadPadding`, whatever the other bytes (60_exceptions R126; 40_padding R91 (a) to (e)). -/
def unpadStatus (x : ByteSeq) (bs : Nat) : Byte :=
  let n := (x.getD (x.length - 1) 0).toNat
  if x.length = 0 ∨ n = 0 ∨ bs < n ∨ x.length < n then 0x0A
  else if (List.range n).any fun j => (x.getD (x.length - 1 - j) 0).toNat != n then 0x0E
  else 0x02

/-- The launch-level record the hardware does not keep: some command of the run ended in an error, the
disjunction of `ERR ≠ 0` over the states after the commands issued (60_exceptions R128). -/
def errorRecorded (after : List State) : Bool := after.any fun s => s.done && s.err != 0

end Sys2Proof.Machine
end

