-- ==== Sys2Proof/Certificates/Slice0/Obligations.lean ====
section
/-!
DEFINITION. The statements for the provers, in the order of the spec's files.
-/

open Sys2Proof Sys2Proof.Machine

/-! ## State and reset -/

/-- 10_state R34: what reset leaves, and that a cipher command issued straight after reset fails with
`INVALID_INPUT`. -/
def Obligations.ResetLeavesEngineEmpty : Prop :=
  State.reset.keyLen = 0 ∧ State.reset.ivLen = 0 ∧ State.reset.dinLen = 0 ∧ State.reset.doutLen = 0 ∧
  State.reset.bsz = 16 ∧ State.reset.cmd = 0x00 ∧ State.reset.status = 0x00 ∧
  State.reset.busy = false ∧ State.reset.done = false ∧ State.reset.err = 0 ∧
  ∀ i : Instr, isCipher i = true →
    ∃ t, step { State.reset with inbox := [.issue (encode i)] } = .next t ∧ Raised .invalidInput t

/-- 70_reset_and_hazards R151: Reset puts the engine at its reset values, whatever its state; the key does
not survive. What R34 leaves unspecified is not spoken of. -/
def Obligations.ResetTransactionEmptiesEngine : Prop :=
  ∀ (s : State) (rest : List Txn), s.inbox = .reset :: rest →
    ∃ t, step s = .next t ∧ t.keyLen = 0 ∧ t.ivLen = 0 ∧ t.dinLen = 0 ∧ t.doutLen = 0 ∧ t.out = [] ∧
      t.bsz = 16 ∧ t.cmd = 0x00 ∧ t.status = 0x00 ∧ t.inbox = rest ∧ t.replies = s.replies

/-- 70_reset_and_hazards R152: what a command does when the operands it reads have not been loaded since
reset: the lengths are 0, as reset leaves them. -/
def Obligations.UnloadedOperandsGiveDefinedErrors : Prop :=
  ∀ s : State,
    (∀ i, isCipher i = true → s.keyLen = 0 → ∃ t, exec i s = .next t ∧ Raised .invalidInput t) ∧
    (∀ i, usesChain i = true → s.ivLen = 0 → ∃ t, exec i s = .next t ∧ Raised .invalidInput t) ∧
    (s.dinLen = 0 → s.bsz ≠ 0 →
      (∃ t, exec .pad s = .next t ∧ Delivered (List.replicate s.bsz.toNat s.bsz) t) ∧
      (∃ t, exec .unpad s = .next t ∧ Raised .badLength t))

/-- 10_state R29: the fields of every `STATUS` value the engine writes, and their numbers. -/
def Obligations.StatusValuesAreTheTable : Prop :=
  State.reset.status = 0x00 ∧ statusBusy = 0x01 ∧ statusOk = 0x02 ∧ statusError .invalidInput = 0x06 ∧
  statusError .badLength = 0x0A ∧ statusError .badPadding = 0x0E ∧ statusError .illegalCmd = 0x12 ∧
  ∀ (s : State) (b d : Bool) (e : BitVec 3), s.status = statusWord b d e →
    s.busy = b ∧ s.done = d ∧ s.err = e ∧ s.status.extractLsb 7 5 = 0

/-- The reset state meets the invariant between transactions. That a buffer lists exactly its valid bytes is how
the model holds it (its choice, log entry 3). -/
def Obligations.ResetStateMeetsInvariant : Prop := State.reset.Inv

/-- Every step keeps the invariant: the valid bytes of every buffer are exactly the listed ones, lengths are
within capacity, `STATUS` is one of the legal values of 10_state R29 and not busy, and a state whose last
command did not succeed has no result (10_state R28, 20_memory R50, R60). That unspecified bytes are not listed is
the model's choice (log entry 3). -/
def Obligations.EveryStepKeepsInvariant : Prop :=
  ∀ s t : State, s.Inv → step s = .next t → t.Inv

/-- 10_state R38: operands change only by their load or by Reset; the result registers only by Issue or
Reset. -/
def Obligations.RegistersChangeOnlyByTheirTransactions : Prop :=
  ∀ s t : State, step s = .next t →
    ((t.key ≠ s.key ∨ t.keyLen ≠ s.keyLen) → ∃ v rest, s.inbox = .loadKey v :: rest ∨ s.inbox = .reset :: rest) ∧
    ((t.iv ≠ s.iv ∨ t.ivLen ≠ s.ivLen) → ∃ v rest, s.inbox = .loadIV v :: rest ∨ s.inbox = .reset :: rest) ∧
    ((t.din ≠ s.din ∨ t.dinLen ≠ s.dinLen) →
      ∃ v rest, s.inbox = .loadData v :: rest ∨ s.inbox = .reset :: rest) ∧
    (t.bsz ≠ s.bsz → ∃ v rest, s.inbox = .setBSZ v :: rest ∨ s.inbox = .reset :: rest) ∧
    (¬ ResultKept s t → ∃ w rest, s.inbox = .issue w :: rest ∨ s.inbox = .reset :: rest)

/-! ## Buffers and the primitive -/

/-- 20_memory R50, R53: MemWrite stores the bytes it names, in order, and changes nothing else; what MemRead
then returns. No buffer aliases another. The canonical form is the model's own (log entry 3).
R53 requires the bytes to be within the capacity; that the same holds of a store beyond it is the model's choice
(log entry 18). -/
def Obligations.MemWriteStoresNamedBytes : Prop :=
  ∀ (s : State) (sp : Space) (off : Nat) (v : ByteSeq),
    (s.memWrite sp off v).memRead sp off v.length = v ∧
    (∀ (sp' : Space) (a : Nat), sp' ≠ sp ∨ a < off ∨ off + v.length ≤ a →
      (s.memWrite sp off v).byteAt sp' a = s.byteAt sp' a) ∧
    (Memory.wf (s.space sp) = true → Memory.wf ((s.memWrite sp off v).space sp) = true) ∧
    (∀ sp', (s.memWrite sp off v).validLen sp' = s.validLen sp') ∧
    s.memWrite sp off v =
      { s with key := (s.memWrite sp off v).key, iv := (s.memWrite sp off v).iv,
               din := (s.memWrite sp off v).din, dout := (s.memWrite sp off v).dout }

/-- 20_memory R69: the mapping of a block to a 128-bit vector, bit by bit, and that it loses nothing. -/
def Obligations.BlocksMapToWords : Prop :=
  (∀ (b : Block) (j : Nat) (h : j < 16) (i : Nat), i < 8 →
    (blockToWord b).getLsbD (120 - 8 * j + i) = b[j].getLsbD i) ∧
  (∀ b : Block, wordToBlock (blockToWord b) = b) ∧
  ∀ w : BitVec 128, blockToWord (wordToBlock w) = w

/-- 00_scope R11: P-inverse gives the other direction too, because `E(k, .)` is then an injection of a finite
set into itself. -/
def Obligations.PrimitiveInverseBothWays : Prop :=
  ∀ P : Primitive, P.Inverse → ∀ k c : Block, P.E k (P.D k c) = c

/-! ## Host transactions -/

/-- 20_memory R56: LoadKey. Nothing changes but the operand and the host's side. A length that is not 16 is accepted
here and found by every cipher command issued then. A busy engine answers `engineBusy` whatever the length: that `BUSY` is looked at first
is the model's choice (log entry 8), the spec names no order among the refusals. -/
def Obligations.LoadKeyStoresKey : Prop :=
  ∀ (s : State) (v : ByteSeq) (rest : List Txn), s.inbox = .loadKey v :: rest →
    (s.busy = true → step s = .refused .engineBusy) ∧
    (s.busy = false → v.length ≤ 255 → ∃ t, step s = .next t ∧
      t = { s with inbox := rest, key := t.key, keyLen := t.keyLen } ∧
      t.keyLen.toNat = v.length ∧ t.memRead .key 0 v.length = v ∧
      (v.length ≠ 16 → ∀ i, isCipher i = true → ∃ u, exec i t = .next u ∧ Raised .invalidInput u)) ∧
    (s.busy = false → 255 < v.length → step s = .refused .operandTooLong)

/-- 20_memory R57: LoadIV. Nothing changes but the operand and the host's side. A length that is not 16 is accepted
here and found by every CBC command issued then. A busy engine answers `engineBusy` whatever the length: that `BUSY` is looked at first
is the model's choice (log entry 8), the spec names no order among the refusals. -/
def Obligations.LoadIVStoresIV : Prop :=
  ∀ (s : State) (v : ByteSeq) (rest : List Txn), s.inbox = .loadIV v :: rest →
    (s.busy = true → step s = .refused .engineBusy) ∧
    (s.busy = false → v.length ≤ 255 → ∃ t, step s = .next t ∧
      t = { s with inbox := rest, iv := t.iv, ivLen := t.ivLen } ∧
      t.ivLen.toNat = v.length ∧ t.memRead .iv 0 v.length = v ∧
      (v.length ≠ 16 → ∀ i, usesChain i = true → ∃ u, exec i t = .next u ∧ Raised .invalidInput u)) ∧
    (s.busy = false → 255 < v.length → step s = .refused .operandTooLong)

/-- 20_memory R58: LoadData, for any `MAXLEN`: with `MAXLEN` unbounded every sequence is accepted.
A busy engine answers `engineBusy` whatever the length: that `BUSY` is looked at first
is the model's choice (log entry 8), the spec names no order among the refusals. -/
def Obligations.LoadDataStoresData : Prop :=
  (∀ (cap : Option Nat) (n : Nat), withinCapacity cap n = true ↔ ∀ m, cap = some m → n ≤ m) ∧
  ∀ (s : State) (v : ByteSeq) (rest : List Txn), s.inbox = .loadData v :: rest →
    (s.busy = true → step s = .refused .engineBusy) ∧
    (s.busy = false →
      if withinCapacity Config.MAXLEN v.length then
        ∃ t, step s = .next t ∧ t = { s with inbox := rest, din := t.din, dinLen := v.length } ∧
          t.memRead .din 0 v.length = v
      else step s = .refused .operandTooLong)

/-- 00_scope R8: `MAXLEN` is unbounded or at least 16, so a load of at most one block is always accepted. -/
def Obligations.OneBlockOfDataAlwaysFits : Prop :=
  (∀ m, Config.MAXLEN = some m → 16 ≤ m) ∧
  ∀ (s : State) (v : ByteSeq) (rest : List Txn), s.inbox = .loadData v :: rest → s.busy = false →
    v.length ≤ 16 → ∃ t, step s = .next t ∧ t.data = v

/-- 20_memory R59: SetBSZ accepts every value, 0 too, which PAD and UNPAD refuse when issued. -/
def Obligations.SetBSZWritesBlockSize : Prop :=
  ∀ (s : State) (v : Byte) (rest : List Txn), s.inbox = .setBSZ v :: rest →
    (s.busy = true → step s = .refused .engineBusy) ∧
    (s.busy = false → step s = .next { s with inbox := rest, bsz := v }) ∧
    (v = 0 → ∀ i, isCipher i = false →
      ∃ u, exec i { s with inbox := rest, bsz := v } = .next u ∧ Raised .invalidInput u)

/-- 20_memory R61: ReadStatus, at any time; among the values 10_state R29 allows, busy is 0x01. -/
def Obligations.ReadStatusAnswersStatus : Prop :=
  ∀ (s : State) (rest : List Txn), s.inbox = .readStatus :: rest →
    step s = .next { s with inbox := rest, replies := s.replies ++ [.status s.status] } ∧
    (LegalStatus s.status ∨ s.status = 0x01 → s.busy = true → s.status = 0x01)

/-- 20_memory R62: ReadOut, and the result the host has obtained. -/
def Obligations.ReadOutAnswersResult : Prop :=
  ∀ (s : State) (rest : List Txn), s.inbox = .readOut :: rest → s.busy = false →
    (s.done = true →
      step s = .next { s with inbox := rest, replies := s.replies ++ [.out s.doutLen s.out] } ∧
      (s.err = 0 → s.result = some (.ok s.out)) ∧
      (s.err = 1 → s.result = some (.error .invalidInput)) ∧
      (s.err = 2 → s.result = some (.error .badLength)) ∧
      (s.err = 3 → s.result = some (.error .badPadding)) ∧
      (s.err = 4 → s.result = some (.error .illegalCmd)) ∧
      (s.Inv → s.err ≠ 0 → s.doutLen = 0 ∧ s.out = [])) ∧
    (s.done = false → step s = .refused .noResult)

/-- 20_memory R63: while busy only ReadStatus and Reset have a step. Between transactions the engine is not busy:
the invariant excludes it. R63 says only that there is no step: that it is refused as `engineBusy`, and so also
for a load that is too long, is the model's choice (log entry 8: `BUSY` is looked at first). -/
def Obligations.BusyEngineRefusesOtherTransactions : Prop :=
  (∀ s : State, s.Inv → s.busy = false) ∧
  ∀ (s : State) (t : Txn) (rest : List Txn), s.inbox = t :: rest → s.busy = true →
    (t = .readStatus ∨ t = .reset → ∃ u, step s = .next u) ∧
    (t ≠ .readStatus → t ≠ .reset → step s = .refused .engineBusy)

/-- 20_memory R68: the loads are idempotent: twice is the same as once. -/
def Obligations.LoadsAreIdempotent : Prop :=
  ∀ (s t u : State) (l : Txn) (rest : List Txn),
    ((∃ v, l = .loadKey v) ∨ (∃ v, l = .loadIV v) ∨ (∃ v, l = .loadData v) ∨ ∃ v, l = .setBSZ v) →
    s.inbox = l :: l :: rest → step s = .next t → step t = .next u →
    u = { t with inbox := rest }

/-- 20_memory R68: Issue of the same word with unchanged operands gives the same outcome again. -/
def Obligations.SameIssueTwiceSameOutcome : Prop :=
  ∀ (s : State) (w : Byte) (rest : List Txn), s.busy = false → s.inbox = .issue w :: .issue w :: rest →
    ∃ t u, step s = .next t ∧ step t = .next u ∧ SameVisible t u ∧ OperandsKept t u

/-- 60_exceptions R132, 10_state R36: a step adds to the host's replies only by a read, and what a read
answers is the same in any two states whose host-visible parts are the same, whatever their keys and
other operands. -/
def Obligations.RepliesRevealOnlyVisibleState : Prop :=
  ∀ (s t : State) (x : Txn) (rest : List Txn), s.inbox = x :: rest → step s = .next t →
    (x ≠ .readStatus → x ≠ .readOut → t.replies = s.replies) ∧
    (x = .readStatus ∨ x = .readOut →
      ∃ r : Reply, t.replies = s.replies ++ [r] ∧
        ∀ s' t' : State, s'.inbox = x :: rest → SameVisible s s' → step s' = .next t' →
          t'.replies = s'.replies ++ [r])

/-! ## Command word, decode and dispatch -/

/-- 30_encoding R72, 95_test_vectors V-D1 to V-D6: sample words. -/
def Obligations.SampleWordsDecode : Prop :=
  decode 0x00 = .command .pad ∧ decode 0x01 = .command .unpad ∧
  decode 0x04 = .command (.ecbEncrypt false) ∧ decode 0x0C = .command (.ecbEncrypt true) ∧
  decode 0x05 = .command (.ecbDecrypt false) ∧ decode 0x0D = .command (.ecbDecrypt true) ∧
  decode 0x06 = .command (.cbcEncrypt false) ∧ decode 0x0E = .command (.cbcEncrypt true) ∧
  decode 0x07 = .command .cbcDecrypt

/-- 30_encoding R75: nine words are legal; the others are reserved. The reasons, and that they are
looked at in this order, are the model's choice (log entry 15): R75 has five rows and the model four names, its
rows 0x02, 0x03 and 0x0A, 0x0B having one name. -/
def Obligations.NineWordsAreLegal : Prop :=
  ∀ w : Byte,
    ((∃ i, decode w = .command i) ↔ w ∈ [0x00, 0x01, 0x04, 0x05, 0x06, 0x07, 0x0C, 0x0D, 0x0E]) ∧
    (decode w = .reserved .modeWithoutCipher ↔ w ∈ [0x02, 0x03, 0x0A, 0x0B]) ∧
    (decode w = .reserved .padFlagOnPadding ↔ w ∈ [0x08, 0x09]) ∧
    (decode w = .reserved .padFlagOnCbcDecrypt ↔ w = 0x0F) ∧
    (decode w = .reserved .reservedBits ↔ 0x10 ≤ w.toNat)

/-- 30_encoding R80: Decode agrees with the mask and match table of R72, whose rows are disjoint. A
word that selects no row is reserved. -/
def Obligations.DecodeAgreesWithOpcodeMap : Prop :=
  ∀ w : Byte,
    (rowsSelected w).length ≤ 1 ∧
    ((rowsSelected w).length = 0 ↔ ∃ why, decode w = .reserved why) ∧
    ∀ i : Instr, decode w = .command i ↔
      ∃ r ∈ opcodeMap, w &&& r.mask = r.pattern ∧ r.command (cmdP w) = i

/-- 30_encoding R80: Encode is the inverse of Decode, both ways, and is `(P << 3) | OPC`. -/
def Obligations.EncodeIsInverseOfDecode : Prop :=
  (∀ i : Instr, i.wellFormed = true → decode (encode i) = .command i ∧
    encode i = ((if padFlagOf i then 1#8 else 0#8) <<< 3) ||| (opcodeOf i).zeroExtend 8) ∧
  ∀ (w : Byte) (i : Instr), decode w = .command i → encode i = w

/-- A step with an Issue at the head of the inbox runs the decoded command, and only it, on the state R81
prepares: `CMD` the word, `DOUT_LEN` 0, `STATUS` busy, everything else as it was but `DOUT`, whose bytes are
then all unspecified (10_state R28; that none is listed is the model's choice, log entry 3). -/
def Obligations.StepRunsDecodedCommand : Prop :=
  ∀ (s : State) (w : Byte) (rest : List Txn) (i : Instr),
    s.inbox = .issue w :: rest → s.busy = false → decode w = .command i →
    step s = exec i { s with inbox := rest, cmd := w, dout := [], doutLen := 0, status := 0x01 }

/-- 60_exceptions R124, 30_encoding R75: a reserved word raises `IllegalCmd`, whatever the operands. -/
def Obligations.ReservedWordRaisesIllegalCmd : Prop :=
  ∀ (s : State) (w : Byte) (rest : List Txn) (why : ReservedWord),
    s.inbox = .issue w :: rest → s.busy = false → decode w = .reserved why →
    ∃ t, step s = .next t ∧ t.status = 0x12 ∧ t.doutLen = 0 ∧ t.out = [] ∧ t.cmd = w ∧
      OperandsKept s t ∧ t.replies = s.replies ∧ t.inbox = rest

/-- 60_exceptions R130: every Issue in a state with `BUSY = 0` ends in OK or one of the four errors. -/
def Obligations.EveryIssueCompletes : Prop :=
  ∀ (s : State) (w : Byte) (rest : List Txn), s.inbox = .issue w :: rest → s.busy = false →
    ∃ t, step s = .next t ∧ t.busy = false ∧ t.done = true ∧
      (t.status = 0x02 ∨ t.status = 0x06 ∨ t.status = 0x0A ∨ t.status = 0x0E ∨ t.status = 0x12)

/-- 30_encoding R74: what each of the six commands leaves unchanged. The buffers a command does not write are
kept whole, so every byte of `KEY`, `IV` and `DIN` reads as before; a command that succeeds writes the bytes
of `DOUT` below `DOUT_LEN` and leaves every other byte of `DOUT` as it was. That last clause is the model's
choice (log entry 3: `return v` writes only the bytes of `v`, and an unlisted byte reads as one free value):
10_state R28 calls those bytes unspecified, and the per-block view of 30_encoding R82 changes them for
ECB_DECRYPT with `P = 1`. -/
def Obligations.CommandsLeaveTheRestUnchanged : Prop :=
  ∀ (i : Instr) (s t : State), exec i s = .next t →
    CommandFrame i s t ∧
    (∀ (sp : Space) (a : Nat), sp ≠ .dout → t.byteAt sp a = s.byteAt sp a) ∧
    (t.status = 0x02 → ∀ a, t.doutLen ≤ a → t.byteAt .dout a = s.byteAt .dout a)

/-! ## Padding -/

/-- 40_padding R90: what `pad` is, byte by byte. -/
def Obligations.PadAppendsItsCount : Prop :=
  ∀ (data : ByteSeq) (bs : Nat), 1 ≤ bs → bs ≤ 255 →
    (padBytes data bs).length = data.length + (bs - data.length % bs) ∧
    (∀ j, j < data.length → (padBytes data bs)[j]? = data[j]?) ∧
    (∀ j, data.length ≤ j → j < (padBytes data bs).length →
      ((padBytes data bs)[j]?).map BitVec.toNat = some (bs - data.length % bs)) ∧
    padBytes [] bs = List.replicate bs (BitVec.ofNat 8 bs)

/-- 40_padding R91: `unpad`, its checks in their order (a) to (e). -/
def Obligations.UnpadDecidesByItsCases : Prop :=
  ∀ (data : ByteSeq) (bs : Nat), 1 ≤ bs → bs ≤ 255 →
    (data = [] → unpadBytes data bs = .error .badLength) ∧
    ∀ last : Byte, data.getLast? = some last →
      (last.toNat = 0 ∨ bs < last.toNat ∨ data.length < last.toNat →
        unpadBytes data bs = .error .badLength) ∧
      (1 ≤ last.toNat → last.toNat ≤ bs → last.toNat ≤ data.length →
        ((∃ j, data.length - last.toNat ≤ j ∧ j < data.length ∧ data[j]? ≠ some last) →
          unpadBytes data bs = .error .badPadding) ∧
        ((∀ j, data.length - last.toNat ≤ j → j < data.length → data[j]? = some last) →
          unpadBytes data bs = .ok (data.take (data.length - last.toNat))))

/-- 40_padding R94 (i) to (iv): the laws of the length arithmetic. -/
def Obligations.PadLengthArithmetic : Prop :=
  ∀ (data : ByteSeq) (bs : Nat), 1 ≤ bs → bs ≤ 255 →
    (1 ≤ padCount data.length bs ∧ padCount data.length bs ≤ bs) ∧
    ((padBytes data bs).length = bs * (data.length / bs + 1) ∧ data.length < (padBytes data bs).length ∧
      (padBytes data bs).length ≤ data.length + 255) ∧
    (padCount data.length bs = bs ↔ data.length % bs = 0) ∧
    ∀ v, unpadBytes data bs = .ok v →
      ∃ last, data.getLast? = some last ∧ 1 ≤ last.toNat ∧ last.toNat ≤ min bs data.length ∧
        v.length = data.length - last.toNat ∧ v.length < data.length

/-- 40_padding R95: `unpad` undoes `pad`. -/
def Obligations.UnpadUndoesPad : Prop :=
  ∀ (data : ByteSeq) (bs : Nat), 1 ≤ bs → bs ≤ 255 → unpadBytes (padBytes data bs) bs = .ok data

/-- 40_padding R96: `unpad` accepts exactly the sequences that end in `k` bytes of value `k`,
`1 ≤ k ≤ min(bs, L)`, `k` the last byte; no byte before them is examined. -/
def Obligations.UnpadAcceptsExactlyPaddedTails : Prop :=
  ∀ (data : ByteSeq) (bs : Nat), 1 ≤ bs → bs ≤ 255 →
    ((∃ v, unpadBytes data bs = .ok v) ↔
      ∃ (front : ByteSeq) (k : Byte), 1 ≤ k.toNat ∧ k.toNat ≤ bs ∧
        data = front ++ List.replicate k.toNat k)

/-- 40_padding R92: PAD. -/
def Obligations.PadCommandPads : Prop :=
  encode .pad = 0x00 ∧
  ∀ s : State,
    (s.bsz = 0 → ∃ t, exec .pad s = .next t ∧ Raised .invalidInput t) ∧
    (s.bsz ≠ 0 →
      ∃ t, exec .pad s = .next t ∧ Delivered (padBytes s.data s.bsz.toNat) t ∧
        t.doutLen = s.dinLen + (s.bsz.toNat - s.dinLen % s.bsz.toNat) ∧
        (∀ j, j < s.dinLen → t.byteAt .dout j = s.byteAt .din j) ∧
        (∀ j, s.dinLen ≤ j → j < t.doutLen →
          (t.byteAt .dout j).toNat = s.bsz.toNat - s.dinLen % s.bsz.toNat))

/-- 40_padding R93: UNPAD, with the cases of R91 read off `DIN`; `n` is its last byte. -/
def Obligations.UnpadCommandStripsPadding : Prop :=
  encode .unpad = 0x01 ∧
  ∀ (s : State) (n : Nat), n = (s.byteAt .din (s.dinLen - 1)).toNat →
    (s.bsz = 0 → ∃ t, exec .unpad s = .next t ∧ Raised .invalidInput t) ∧
    (s.bsz ≠ 0 → s.dinLen = 0 ∨ n = 0 ∨ s.bsz.toNat < n ∨ s.dinLen < n →
      ∃ t, exec .unpad s = .next t ∧ Raised .badLength t) ∧
    (s.bsz ≠ 0 → 1 ≤ n → n ≤ s.bsz.toNat → n ≤ s.dinLen →
      ((∃ j, s.dinLen - n ≤ j ∧ j < s.dinLen ∧ (s.byteAt .din j).toNat ≠ n) →
        ∃ t, exec .unpad s = .next t ∧ Raised .badPadding t) ∧
      ((∀ j, s.dinLen - n ≤ j → j < s.dinLen → (s.byteAt .din j).toNat = n) →
        ∃ t, exec .unpad s = .next t ∧ t.status = 0x02 ∧ t.doutLen = s.dinLen - n ∧
          (∀ j, j < t.doutLen → t.byteAt .dout j = s.byteAt .din j)))

/-! ## ECB and CBC -/

/-- 42_cbc R110: XOR of blocks is bytewise, and its three laws. -/
def Obligations.XorIsBytewise : Prop :=
  ∀ x y : Block,
    (∀ j (h : j < 16), ∀ b, b < 8 → (xorBlock x y)[j].getLsbD b = (x[j].getLsbD b ^^ y[j].getLsbD b)) ∧
    xorBlock x y = xorBlock y x ∧ xorBlock (xorBlock x y) y = x ∧ xorBlock x (Vector.replicate 16 0) = x

/-- 41_ecb R100: ECB_ENCRYPT. Block `i` of the result is `E(k, Blk(Src, i))`, `Src` as 20_memory R52. -/
def Obligations.EcbEncryptEncryptsEachBlock : Prop :=
  encode (.ecbEncrypt false) = 0x04 ∧ encode (.ecbEncrypt true) = 0x0C ∧
  ∀ (p : Bool) (s : State),
    (s.keyLen ≠ 16 ∨ (p = false ∧ s.dinLen % 16 ≠ 0) →
      ∃ t, exec (.ecbEncrypt p) s = .next t ∧ Raised .invalidInput t) ∧
    (s.keyLen = 16 → (p = false → s.dinLen % 16 = 0) →
      ∃ t, exec (.ecbEncrypt p) s = .next t ∧ t.status = 0x02 ∧
        t.doutLen = (if p then 16 * (s.dinLen / 16 + 1) else s.dinLen) ∧
        ∀ i, 16 * i < t.doutLen →
          t.readBlock .dout (16 * i) =
            Config.primE (s.readBlock .key 0) ((seqSetup (.ecbEncrypt p) s).srcBlock i))

/-- 41_ecb R101: ECB_DECRYPT. `pt` is the decrypted sequence, block `i` of it `D(k, Blk(data, i))`. -/
def Obligations.EcbDecryptDecryptsEachBlock : Prop :=
  encode (.ecbDecrypt false) = 0x05 ∧ encode (.ecbDecrypt true) = 0x0D ∧
  ∀ (p : Bool) (s : State),
    (s.keyLen ≠ 16 ∨ s.dinLen % 16 ≠ 0 → ∃ t, exec (.ecbDecrypt p) s = .next t ∧ Raised .invalidInput t) ∧
    (s.keyLen = 16 → s.dinLen % 16 = 0 →
      ∃ (pt : ByteSeq) (t : State), pt.length = s.dinLen ∧
        (∀ i, 16 * i < s.dinLen →
          blk pt i = Config.primD (s.readBlock .key 0) (s.readBlock .din (16 * i))) ∧
        exec (.ecbDecrypt p) s = .next t ∧
        (p = false → Delivered pt t) ∧
        (p = true → ∀ v, unpadBytes pt 16 = .ok v → Delivered v t) ∧
        (p = true → ∀ e, unpadBytes pt 16 = .error e → Raised e.toCmdError t))

/-- 42_cbc R111: CBC_ENCRYPT. Block `i` of the result is `E(k, Pi XOR C(i-1))`, `C(-1)` the IV and
`C(i-1)` block `i-1` of the result itself. -/
def Obligations.CbcEncryptChainsBlocks : Prop :=
  encode (.cbcEncrypt false) = 0x06 ∧ encode (.cbcEncrypt true) = 0x0E ∧
  ∀ (p : Bool) (s : State),
    (s.keyLen ≠ 16 ∨ s.ivLen ≠ 16 ∨ (p = false ∧ s.dinLen % 16 ≠ 0) →
      ∃ t, exec (.cbcEncrypt p) s = .next t ∧ Raised .invalidInput t) ∧
    (s.keyLen = 16 → s.ivLen = 16 → (p = false → s.dinLen % 16 = 0) →
      ∃ t, exec (.cbcEncrypt p) s = .next t ∧ t.status = 0x02 ∧
        t.doutLen = (if p then 16 * (s.dinLen / 16 + 1) else s.dinLen) ∧
        ∀ i, 16 * i < t.doutLen →
          t.readBlock .dout (16 * i) =
            Config.primE (s.readBlock .key 0)
              (xorBlock ((seqSetup (.cbcEncrypt p) s).srcBlock i)
                (if i = 0 then s.readBlock .iv 0 else t.readBlock .dout (16 * (i - 1)))))

/-- 42_cbc R112: CBC_DECRYPT. Block `i` of the result is `D(k, Ci) XOR C(i-1)`, every `C` an input block;
nothing is unpadded. -/
def Obligations.CbcDecryptUnchainsBlocks : Prop :=
  encode .cbcDecrypt = 0x07 ∧
  ∀ s : State,
    (s.keyLen ≠ 16 ∨ s.ivLen ≠ 16 ∨ s.dinLen % 16 ≠ 0 →
      ∃ t, exec .cbcDecrypt s = .next t ∧ Raised .invalidInput t) ∧
    (s.keyLen = 16 → s.ivLen = 16 → s.dinLen % 16 = 0 →
      ∃ t, exec .cbcDecrypt s = .next t ∧ t.status = 0x02 ∧ t.doutLen = s.dinLen ∧
        ∀ i, 16 * i < s.dinLen →
          t.readBlock .dout (16 * i) =
            xorBlock (Config.primD (s.readBlock .key 0) (s.readBlock .din (16 * i)))
              (if i = 0 then s.readBlock .iv 0 else s.readBlock .din (16 * (i - 1))))

/-- 41_ecb R105: equal source blocks give equal ciphertext blocks. -/
def Obligations.EcbEqualBlocksGiveEqualBlocks : Prop :=
  ∀ (p : Bool) (s t : State) (i j : Nat), exec (.ecbEncrypt p) s = .next t → t.status = 0x02 →
    16 * i < t.doutLen → 16 * j < t.doutLen →
    (seqSetup (.ecbEncrypt p) s).srcBlock i = (seqSetup (.ecbEncrypt p) s).srcBlock j →
    t.readBlock .dout (16 * i) = t.readBlock .dout (16 * j)

/-- 41_ecb R102: in the ECB commands output block `i` depends only on the key and on input block `i`, over
any primitive: whatever the other blocks of the data and however many there are. -/
def Obligations.EcbBlocksAreIndependent : Prop :=
  ∀ (P : Primitive) (s s' t t' : State) (i : Nat), s.keyBlock = s'.keyBlock →
    16 * i + 16 ≤ s.dinLen → 16 * i + 16 ≤ s'.dinLen →
    s.readBlock .din (16 * i) = s'.readBlock .din (16 * i) →
    (∀ p p', commandWith P (.ecbEncrypt p) s = .next t → commandWith P (.ecbEncrypt p') s' = .next t' →
      t.status = 0x02 → t'.status = 0x02 → t.readBlock .dout (16 * i) = t'.readBlock .dout (16 * i)) ∧
    (commandWith P (.ecbDecrypt false) s = .next t → commandWith P (.ecbDecrypt false) s' = .next t' →
      t.status = 0x02 → t'.status = 0x02 → t.readBlock .dout (16 * i) = t'.readBlock .dout (16 * i))

/-- 41_ecb R104, 42_cbc R116: the length of a result, against the length of the data. -/
def Obligations.CipherResultLengths : Prop :=
  ∀ (i : Instr) (s t : State), exec i s = .next t → t.status = 0x02 →
    match i with
    | .ecbEncrypt p | .cbcEncrypt p =>
      t.doutLen % 16 = 0 ∧ t.doutLen = if p then 16 * (s.dinLen / 16 + 1) else s.dinLen
    | .ecbDecrypt false | .cbcDecrypt => t.doutLen = s.dinLen
    | .ecbDecrypt true => t.doutLen < s.dinLen ∧ s.dinLen ≤ t.doutLen + 16
    | .pad => t.doutLen % s.bsz.toNat = 0 ∧ s.dinLen < t.doutLen ∧ t.doutLen ≤ s.dinLen + s.bsz.toNat
    | .unpad => t.doutLen < s.dinLen ∧ s.dinLen ≤ t.doutLen + s.bsz.toNat

/-- 41_ecb R103: the padded ECB round trip holds for all keys and all data exactly when the primitive
satisfies P-inverse, and then the unpadded one holds for block-aligned data. The host loads the first
command's result as the second one's data. The engine is this over its own primitive. -/
def Obligations.EcbRoundTripIffPrimitiveInverse : Prop :=
  (∀ i s, exec i s = commandWith Config.primitive i s) ∧
  ∀ P : Primitive,
    (P.Inverse ↔ ∀ s : State, s.keyLen = 16 →
      ∃ t u, commandWith P (.ecbEncrypt true) s = .next t ∧
        commandWith P (.ecbDecrypt true) (t.loadData t.out) = .next u ∧ Delivered s.data u) ∧
    (P.Inverse → ∀ s : State, s.keyLen = 16 → s.dinLen % 16 = 0 →
      ∃ t u, commandWith P (.ecbEncrypt false) s = .next t ∧
        commandWith P (.ecbDecrypt false) (t.loadData t.out) = .next u ∧ Delivered s.data u)

/-- 42_cbc R114: the CBC round trip (a) without and (b) with padding, and that with padding the literal
round trip is false: the decrypted sequence is longer than the data. Then UNPAD with `BSZ` = 16 gives
the data. -/
def Obligations.CbcRoundTrip : Prop :=
  ∀ (P : Primitive), P.Inverse → ∀ s : State, s.keyLen = 16 → s.ivLen = 16 →
    (s.dinLen % 16 = 0 →
      ∃ t u, commandWith P (.cbcEncrypt false) s = .next t ∧
        commandWith P .cbcDecrypt (t.loadData t.out) = .next u ∧ Delivered s.data u) ∧
    ∃ t u v, commandWith P (.cbcEncrypt true) s = .next t ∧
      commandWith P .cbcDecrypt (t.loadData t.out) = .next u ∧ Delivered (padBytes s.data 16) u ∧
      u.out ≠ s.data ∧ s.dinLen < u.doutLen ∧ u.doutLen ≤ s.dinLen + 16 ∧
      commandWith P .unpad ((u.loadData u.out).setBSZ 16) = .next v ∧ Delivered s.data v

/-- 42_cbc R115: a long message encrypted in two commands, the host loading the last ciphertext block as the
IV of the second, gives the same bytes as one command, over any primitive. -/
def Obligations.CbcPiecesChainedByHost : Prop :=
  ∀ (P : Primitive) (p : Bool) (s : State) (a b : ByteSeq), s.keyLen = 16 → s.ivLen = 16 →
    s.data = a ++ b → a ≠ [] → a.length % 16 = 0 → (p = true ∨ b.length % 16 = 0) →
    ∃ whole first second, commandWith P (.cbcEncrypt p) s = .next whole ∧
      commandWith P (.cbcEncrypt false) (s.loadData a) = .next first ∧
      commandWith P (.cbcEncrypt p) ((first.loadIV (first.out.drop (a.length - 16))).loadData b) =
        .next second ∧
      whole.status = 0x02 ∧ first.status = 0x02 ∧ second.status = 0x02 ∧
      whole.out = first.out ++ second.out

/-- 42_cbc R112, corner case: a wrong IV damages only the first block, over any primitive. -/
def Obligations.WrongIVDamagesFirstBlockOnly : Prop :=
  ∀ (P : Primitive) (s t t' : State) (v : ByteSeq), s.keyLen = 16 → s.ivLen = 16 → s.dinLen % 16 = 0 →
    v.length = 16 →
    commandWith P .cbcDecrypt s = .next t → commandWith P .cbcDecrypt (s.loadIV v) = .next t' →
    t'.status = 0x02 ∧ t.out.drop 16 = t'.out.drop 16

/-! ## Errors and determinism -/

/-- 60_exceptions R121: the complete list of conditions of `InvalidInput`, per command; no other raises it. -/
def Obligations.InvalidInputExactlyByTheTable : Prop :=
  ∀ (i : Instr) (s t : State), exec i s = .next t →
    (t.status = 0x06 ↔
      match i with
      | .pad | .unpad => s.bsz = 0
      | .ecbEncrypt p => s.keyLen ≠ 16 ∨ (p = false ∧ s.dinLen % 16 ≠ 0)
      | .ecbDecrypt _ => s.keyLen ≠ 16 ∨ s.dinLen % 16 ≠ 0
      | .cbcEncrypt p => s.keyLen ≠ 16 ∨ s.ivLen ≠ 16 ∨ (p = false ∧ s.dinLen % 16 ≠ 0)
      | .cbcDecrypt => s.keyLen ≠ 16 ∨ s.ivLen ≠ 16 ∨ s.dinLen % 16 ≠ 0)

/-- 60_exceptions R120, R122, R123: which commands can raise a padding error; none raises `IllegalCmd`. -/
def Obligations.PaddingErrorsOnlyFromUnpadding : Prop :=
  ∀ (i : Instr) (s t : State), exec i s = .next t →
    t.status ≠ 0x12 ∧ ((t.status = 0x0A ∨ t.status = 0x0E) → i = .unpad ∨ i = .ecbDecrypt true)

/-- 60_exceptions R126: the order of the errors, for every command word. -/
def Obligations.FirstErrorInPriorityOrder : Prop :=
  ∀ (s : State) (w : Byte) (rest : List Txn), s.inbox = .issue w :: rest → s.busy = false →
    ∃ t, step s = .next t ∧
      t.status =
        match decode w with
        | .reserved _ => 0x12
        | .command i =>
          if invalidInput i s then 0x06
          else
            match i with
            | .unpad => unpadStatus s.data s.bsz.toNat
            | .ecbDecrypt true =>
              unpadStatus (ecbDecryptBytes Config.primitive s.keyBlock s.data) 16
            | .pad | .ecbEncrypt _ | .ecbDecrypt false | .cbcEncrypt _ | .cbcDecrypt => 0x02

/-- 60_exceptions R127: a failing Issue delivers no part of a result and leaves every operand and `CMD` (the
word it was given) as they were. -/
def Obligations.ErrorDeliversNothing : Prop :=
  ∀ (s t : State) (w : Byte) (rest : List Txn), s.inbox = .issue w :: rest → s.busy = false →
    step s = .next t → t.err ≠ 0 →
    t.doutLen = 0 ∧ t.out = [] ∧ t.busy = false ∧ t.done = true ∧
      (t.status = 0x06 ∨ t.status = 0x0A ∨ t.status = 0x0E ∨ t.status = 0x12) ∧
      OperandsKept s t ∧ t.cmd = w

/-- 60_exceptions R128: an error is not sticky: an Issue has the same outcome whatever the earlier command
left in the result and sequencer registers. -/
def Obligations.ErrorsAreNotSticky : Prop :=
  ∀ (s s' : State) (w : Byte) (rest : List Txn), s.inbox = .issue w :: rest → s.busy = false →
    s' = { s with status := s'.status, dout := s'.dout, doutLen := s'.doutLen, cmd := s'.cmd,
                  blk := s'.blk, nblk := s'.nblk, chain := s'.chain, padn := s'.padn } →
    s'.busy = false →
    ∃ t t', step s = .next t ∧ step s' = .next t' ∧ SameVisible t t'

/-- 70_reset_and_hazards R154: the outcome of a command is a function of the word and the operands, and of
nothing else. -/
def Obligations.OutcomeDependsOnOperandsOnly : Prop :=
  ∀ (s s' : State) (w : Byte) (rest rest' : List Txn), s.inbox = .issue w :: rest →
    s'.inbox = .issue w :: rest' → s.busy = false → s'.busy = false → SameOperands s s' →
    ∃ t t', step s = .next t ∧ step s' = .next t' ∧ SameVisible t t'

/-- 60_exceptions R121, 10_state R24, R25: no command checks or reads an operand it does not use. -/
def Obligations.UnusedOperandsAreIgnored : Prop :=
  ∀ (i : Instr) (s s' t t' : State), exec i s = .next t → exec i s' = .next t' →
    s'.din = s.din → s'.dinLen = s.dinLen →
    (isCipher i = true → s'.key = s.key ∧ s'.keyLen = s.keyLen) →
    (usesChain i = true → s'.iv = s.iv ∧ s'.ivLen = s.ivLen) →
    (isCipher i = false → s'.bsz = s.bsz) → SameVisible t t'

/-! ## The per-block view and host scripts -/

/-- 30_encoding R83: running the four phases gives the same `DOUT`, `DOUT_LEN` and `STATUS` as the
command's own rule, over any primitive. -/
def Obligations.PerBlockViewAgreesWithCommand : Prop :=
  ∀ (P : Primitive) (i : Instr) (s : State), isCipher i = true →
    ∃ t, commandWith P i s = .next t ∧ SameVisible t (seqCommand P i s)

/-- 30_encoding R82, 10_state R31, 70_reset_and_hazards R156, R158: the block loop does exactly `NBLK` block
steps; `BLK` counts them; `NBLK` is the number of primitive applications R156 gives. -/
def Obligations.BlockLoopIsCounted : Prop :=
  ∀ (P : Primitive) (i : Instr) (s : State), isCipher i = true →
    (∀ k, k ≤ (seqSetup i s).nblk →
      (seqRun P i k (seqSetup i s)).blk = k ∧ (seqRun P i k (seqSetup i s)).nblk = (seqSetup i s).nblk) ∧
    (∀ k, (seqSetup i s).nblk ≤ k → seqRun P i k (seqSetup i s) = seqProcess P i s) ∧
    (seqSetup i s).nblk =
      match i with
      | .ecbEncrypt true | .cbcEncrypt true => s.dinLen / 16 + 1
      | .pad | .unpad | .ecbEncrypt false | .ecbDecrypt _ | .cbcEncrypt false | .cbcDecrypt => s.dinLen / 16

/-- 10_state R32: during a CBC command `CHAIN` is the IV before the first block and after `k` blocks the
ciphertext block `k-1`: the one just produced for CBC_ENCRYPT, the one just consumed for CBC_DECRYPT. -/
def Obligations.ChainHoldsPreviousCiphertextBlock : Prop :=
  ∀ (P : Primitive) (i : Instr) (s : State) (k : Nat), usesChain i = true → k ≤ (seqSetup i s).nblk →
    (seqRun P i k (seqSetup i s)).chain =
      if k = 0 then s.readBlock .iv 0
      else if i = .cbcDecrypt then s.readBlock .din (16 * (k - 1))
      else (seqRun P i k (seqSetup i s)).readBlock .dout (16 * (k - 1))

/-- 30_encoding R79: MOVEOUT feeds a result to the data buffer, or stops the script on an error. A result
longer than `MAXLEN` cannot be moved. -/
def Obligations.MoveOutFeedsResultToData : Prop :=
  ∀ s : State, s.busy = false →
    (s.err ≠ 0 → ∃ t, moveOut s = .stopped t) ∧
    (s.err = 0 → s.done = true →
      if withinCapacity Config.MAXLEN s.doutLen then
        ∃ t, moveOut s = .goesOn t ∧ t.data = s.out ∧ t.dinLen = s.doutLen ∧ t.out = s.out ∧
          t.status = s.status ∧ t.key = s.key ∧ t.keyLen = s.keyLen ∧ t.iv = s.iv ∧ t.ivLen = s.ivLen ∧
          t.bsz = s.bsz
      else moveOut s = .refused .operandTooLong)

/-- 30_encoding R79: CBC_DECRYPT_UNPAD is its expansion, and leaves `BSZ` = 16 when it does not stop. -/
def Obligations.CbcDecryptUnpadIsItsExpansion : Prop :=
  ∀ s : State,
    scriptLine .cbcDecryptUnpad s =
      runScript [.command .cbcDecrypt, .moveOut, .perform (.setBSZ 16), .command .unpad] s ∧
    ∀ t, scriptLine .cbcDecryptUnpad s = .goesOn t → t.bsz = 16
end

