-- ==== Sys2Proof/Laws/Memory.lean ====
section
/-!
SUPPORT. Laws of a buffer's cells: read after write, and that every operation keeps the canonical form.
-/

namespace Sys2Proof.Machine

theorem Memory.lookup_insert (m : Memory) (a b : Nat) (v : Byte) :
    Memory.lookup (Memory.insert m a v) b = if b = a then some v else Memory.lookup m b := by
  induction m with
  | nil => simp [Memory.insert, Memory.lookup]
  | cons c rest ih =>
    obtain ⟨x, w⟩ := c
    by_cases h1 : a < x
    · simp [Memory.insert, h1, Memory.lookup]
    · by_cases h2 : a = x
      · subst h2
        by_cases h3 : b = a <;> simp [Memory.insert, Memory.lookup, h3]
      · by_cases h3 : b = x
        · subst h3
          simp [Memory.insert, h1, h2, Memory.lookup, Ne.symm h2]
        · simp [Memory.insert, h1, h2, Memory.lookup, h3, ih]

/-- What a byte is after a store: the byte stored there, or what it was. -/
theorem Memory.lookup_write (m : Memory) (off : Nat) (v : ByteSeq) (b : Nat) :
    Memory.lookup (Memory.write m off v) b =
      if off ≤ b ∧ b < off + v.length then v[b - off]? else Memory.lookup m b := by
  induction v generalizing m off with
  | nil => simp [Memory.write]
  | cons x rest ih =>
    rw [Memory.write, ih, Memory.lookup_insert]
    simp only [List.length_cons]
    by_cases h1 : b = off
    · subst h1; simp
    · by_cases h2 : off + 1 ≤ b ∧ b < off + 1 + rest.length
      · have h3 : off ≤ b ∧ b < off + (rest.length + 1) := by omega
        have h4 : b - off = (b - (off + 1)) + 1 := by omega
        rw [if_pos h2, if_pos h3, h4]; simp
      · have h3 : ¬ (off ≤ b ∧ b < off + (rest.length + 1)) := by omega
        rw [if_neg h2, if_neg h3, if_neg h1]

@[simp] theorem Memory.lookup_nil (a : Nat) : Memory.lookup [] a = none := rfl

theorem Memory.mem_insert {m : Memory} {a : Nat} {v : Byte} {c : Host.Cell}
    (h : c ∈ Memory.insert m a v) : c = (a, v) ∨ c ∈ m := by
  induction m with
  | nil => exact .inl (by simpa [Memory.insert] using h)
  | cons d rest ih =>
    obtain ⟨x, w⟩ := d
    simp only [Memory.insert] at h
    split at h
    · exact List.mem_cons.mp h
    · split at h
      · rcases List.mem_cons.mp h with h | h
        · exact .inl h
        · exact .inr (List.mem_cons_of_mem _ h)
      · rcases List.mem_cons.mp h with h | h
        · exact .inr (by simp [h])
        · exact (ih h).imp_right (List.mem_cons_of_mem _)

theorem Memory.wf_iff (m : Memory) : Memory.wf m = true ↔ m.Pairwise fun c d => c.1 < d.1 := by
  simp [Memory.wf]

theorem Memory.wf_nil : Memory.wf [] = true := rfl

theorem Memory.wf_insert {m : Memory} (h : Memory.wf m = true) (a : Nat) (v : Byte) :
    Memory.wf (Memory.insert m a v) = true := by
  rw [Memory.wf_iff] at h ⊢
  induction m with
  | nil => simp [Memory.insert]
  | cons d rest ih =>
    obtain ⟨x, w⟩ := d
    have hx := (List.pairwise_cons.mp h).1
    have hr := (List.pairwise_cons.mp h).2
    simp only [Memory.insert]
    split
    · next hlt =>
      refine List.pairwise_cons.mpr ⟨fun c hc => ?_, h⟩
      rcases List.mem_cons.mp hc with rfl | hc
      · exact hlt
      · exact Nat.lt_trans hlt (hx c hc)
    · split
      · next heq => subst heq; exact List.pairwise_cons.mpr ⟨hx, hr⟩
      · next h1 h2 =>
        refine List.pairwise_cons.mpr ⟨fun c hc => ?_, ih hr⟩
        rcases Memory.mem_insert hc with rfl | hc
        · show x < a; omega
        · exact hx c hc

/-- A store keeps the canonical form. -/
theorem Memory.wf_write {m : Memory} (h : Memory.wf m = true) (off : Nat) (v : ByteSeq) :
    Memory.wf (Memory.write m off v) = true := by
  induction v generalizing m off with
  | nil => exact h
  | cons b rest ih => exact ih (Memory.wf_insert h off b) (off + 1)

/-- A buffer that lists exactly its valid bytes is in canonical form. -/
theorem Memory.Holds.wf {m : Memory} {n : Nat} (h : Memory.Holds m n) : Memory.wf m = true := by
  rw [Memory.wf_iff, ← List.pairwise_map (f := Prod.fst) (R := (· < ·)), h]
  exact List.pairwise_lt_range

theorem Memory.insert_append {m : Memory} {a : Nat} {v : Byte} (h : ∀ c ∈ m, c.1 < a) :
    Memory.insert m a v = m ++ [(a, v)] := by
  induction m with
  | nil => rfl
  | cons d rest ih =>
    obtain ⟨x, w⟩ := d
    have hx : x < a := h (x, w) (by simp)
    have h1 : ¬ a < x := by omega
    have h2 : ¬ a = x := by omega
    simp only [Memory.insert, h1, h2, if_false, List.cons_append]
    rw [ih fun c hc => h c (List.mem_cons_of_mem _ hc)]

theorem Memory.Holds.write {m : Memory} {n : Nat} (h : Memory.Holds m n) (v : ByteSeq) :
    Memory.Holds (Memory.write m n v) (n + v.length) := by
  induction v generalizing m n with
  | nil => exact h
  | cons b rest ih =>
    have hlt : ∀ c ∈ m, c.1 < n := fun c hc => by
      have : c.1 ∈ m.map Prod.fst := List.mem_map_of_mem hc
      rw [h] at this
      exact List.mem_range.mp this
    have hins : Memory.Holds (Memory.insert m n b) (n + 1) := by
      rw [Memory.insert_append hlt]
      simp only [Memory.Holds, List.map_append, List.range_succ]
      rw [show m.map Prod.fst = List.range n from h]
      rfl
    have := ih hins
    rwa [show n + 1 + rest.length = n + (b :: rest).length by simp; omega] at this

theorem Memory.holds_nil : Memory.Holds [] 0 := rfl

/-- A fresh sequence in an empty buffer: exactly its bytes are listed. -/
theorem Memory.holds_fill (v : ByteSeq) : Memory.Holds (Memory.write [] 0 v) v.length := by
  simpa using Memory.holds_nil.write v

/-- The state after reset: every buffer in canonical form. -/
theorem reset_wf (sp : Space) : Memory.wf (State.reset.space sp) = true := by cases sp <;> rfl

/-- Every buffer operation of the machine keeps the canonical form. -/
theorem State.memWrite_wf {s : State} {sp : Space} (h : Memory.wf (s.space sp) = true) (off : Nat)
    (v : ByteSeq) : Memory.wf ((s.memWrite sp off v).space sp) = true := by
  cases sp <;> exact Memory.wf_write h off v

theorem State.fill_wf (s : State) (sp : Space) (v : ByteSeq) :
    Memory.wf ((s.fill sp v).space sp) = true := by
  cases sp <;> exact Memory.wf_write Memory.wf_nil 0 v

theorem State.discard_wf (s : State) (sp : Space) : Memory.wf ((s.discard sp).space sp) = true := by
  cases sp <;> rfl

end Sys2Proof.Machine
end

