-- ==== Sys2Proof/Laws/State.lean ====
section
/-!
SUPPORT. One lemma per field per update of the state, so that no proof unfolds a record update.
-/

namespace Sys2Proof.Machine

variable (s : State)

@[simp] theorem State.space_key : s.space .key = s.key := rfl
@[simp] theorem State.space_iv : s.space .iv = s.iv := rfl
@[simp] theorem State.space_din : s.space .din = s.din := rfl
@[simp] theorem State.space_dout : s.space .dout = s.dout := rfl

@[simp] theorem State.loadKey_key (v : ByteSeq) : (s.loadKey v).key = Memory.write [] 0 v := rfl
@[simp] theorem State.loadKey_keyLen (v : ByteSeq) : (s.loadKey v).keyLen = BitVec.ofNat 8 v.length := rfl
@[simp] theorem State.loadKey_iv (v : ByteSeq) : (s.loadKey v).iv = s.iv := rfl
@[simp] theorem State.loadKey_ivLen (v : ByteSeq) : (s.loadKey v).ivLen = s.ivLen := rfl
@[simp] theorem State.loadKey_bsz (v : ByteSeq) : (s.loadKey v).bsz = s.bsz := rfl
@[simp] theorem State.loadKey_din (v : ByteSeq) : (s.loadKey v).din = s.din := rfl
@[simp] theorem State.loadKey_dinLen (v : ByteSeq) : (s.loadKey v).dinLen = s.dinLen := rfl
@[simp] theorem State.loadKey_cmd (v : ByteSeq) : (s.loadKey v).cmd = s.cmd := rfl
@[simp] theorem State.loadKey_dout (v : ByteSeq) : (s.loadKey v).dout = s.dout := rfl
@[simp] theorem State.loadKey_doutLen (v : ByteSeq) : (s.loadKey v).doutLen = s.doutLen := rfl
@[simp] theorem State.loadKey_status (v : ByteSeq) : (s.loadKey v).status = s.status := rfl
@[simp] theorem State.loadKey_blk (v : ByteSeq) : (s.loadKey v).blk = s.blk := rfl
@[simp] theorem State.loadKey_nblk (v : ByteSeq) : (s.loadKey v).nblk = s.nblk := rfl
@[simp] theorem State.loadKey_chain (v : ByteSeq) : (s.loadKey v).chain = s.chain := rfl
@[simp] theorem State.loadKey_padn (v : ByteSeq) : (s.loadKey v).padn = s.padn := rfl
@[simp] theorem State.loadKey_inbox (v : ByteSeq) : (s.loadKey v).inbox = s.inbox := rfl
@[simp] theorem State.loadKey_replies (v : ByteSeq) : (s.loadKey v).replies = s.replies := rfl
@[simp] theorem State.loadKey_freeCount (v : ByteSeq) : (s.loadKey v).freeCount = s.freeCount := rfl

@[simp] theorem State.loadIV_key (v : ByteSeq) : (s.loadIV v).key = s.key := rfl
@[simp] theorem State.loadIV_keyLen (v : ByteSeq) : (s.loadIV v).keyLen = s.keyLen := rfl
@[simp] theorem State.loadIV_iv (v : ByteSeq) : (s.loadIV v).iv = Memory.write [] 0 v := rfl
@[simp] theorem State.loadIV_ivLen (v : ByteSeq) : (s.loadIV v).ivLen = BitVec.ofNat 8 v.length := rfl
@[simp] theorem State.loadIV_bsz (v : ByteSeq) : (s.loadIV v).bsz = s.bsz := rfl
@[simp] theorem State.loadIV_din (v : ByteSeq) : (s.loadIV v).din = s.din := rfl
@[simp] theorem State.loadIV_dinLen (v : ByteSeq) : (s.loadIV v).dinLen = s.dinLen := rfl
@[simp] theorem State.loadIV_cmd (v : ByteSeq) : (s.loadIV v).cmd = s.cmd := rfl
@[simp] theorem State.loadIV_dout (v : ByteSeq) : (s.loadIV v).dout = s.dout := rfl
@[simp] theorem State.loadIV_doutLen (v : ByteSeq) : (s.loadIV v).doutLen = s.doutLen := rfl
@[simp] theorem State.loadIV_status (v : ByteSeq) : (s.loadIV v).status = s.status := rfl
@[simp] theorem State.loadIV_blk (v : ByteSeq) : (s.loadIV v).blk = s.blk := rfl
@[simp] theorem State.loadIV_nblk (v : ByteSeq) : (s.loadIV v).nblk = s.nblk := rfl
@[simp] theorem State.loadIV_chain (v : ByteSeq) : (s.loadIV v).chain = s.chain := rfl
@[simp] theorem State.loadIV_padn (v : ByteSeq) : (s.loadIV v).padn = s.padn := rfl
@[simp] theorem State.loadIV_inbox (v : ByteSeq) : (s.loadIV v).inbox = s.inbox := rfl
@[simp] theorem State.loadIV_replies (v : ByteSeq) : (s.loadIV v).replies = s.replies := rfl
@[simp] theorem State.loadIV_freeCount (v : ByteSeq) : (s.loadIV v).freeCount = s.freeCount := rfl

@[simp] theorem State.loadData_key (v : ByteSeq) : (s.loadData v).key = s.key := rfl
@[simp] theorem State.loadData_keyLen (v : ByteSeq) : (s.loadData v).keyLen = s.keyLen := rfl
@[simp] theorem State.loadData_iv (v : ByteSeq) : (s.loadData v).iv = s.iv := rfl
@[simp] theorem State.loadData_ivLen (v : ByteSeq) : (s.loadData v).ivLen = s.ivLen := rfl
@[simp] theorem State.loadData_bsz (v : ByteSeq) : (s.loadData v).bsz = s.bsz := rfl
@[simp] theorem State.loadData_din (v : ByteSeq) : (s.loadData v).din = Memory.write [] 0 v := rfl
@[simp] theorem State.loadData_dinLen (v : ByteSeq) : (s.loadData v).dinLen = v.length := rfl
@[simp] theorem State.loadData_cmd (v : ByteSeq) : (s.loadData v).cmd = s.cmd := rfl
@[simp] theorem State.loadData_dout (v : ByteSeq) : (s.loadData v).dout = s.dout := rfl
@[simp] theorem State.loadData_doutLen (v : ByteSeq) : (s.loadData v).doutLen = s.doutLen := rfl
@[simp] theorem State.loadData_status (v : ByteSeq) : (s.loadData v).status = s.status := rfl
@[simp] theorem State.loadData_blk (v : ByteSeq) : (s.loadData v).blk = s.blk := rfl
@[simp] theorem State.loadData_nblk (v : ByteSeq) : (s.loadData v).nblk = s.nblk := rfl
@[simp] theorem State.loadData_chain (v : ByteSeq) : (s.loadData v).chain = s.chain := rfl
@[simp] theorem State.loadData_padn (v : ByteSeq) : (s.loadData v).padn = s.padn := rfl
@[simp] theorem State.loadData_inbox (v : ByteSeq) : (s.loadData v).inbox = s.inbox := rfl
@[simp] theorem State.loadData_replies (v : ByteSeq) : (s.loadData v).replies = s.replies := rfl
@[simp] theorem State.loadData_freeCount (v : ByteSeq) : (s.loadData v).freeCount = s.freeCount := rfl

@[simp] theorem State.setBSZ_key (v : Byte) : (s.setBSZ v).key = s.key := rfl
@[simp] theorem State.setBSZ_keyLen (v : Byte) : (s.setBSZ v).keyLen = s.keyLen := rfl
@[simp] theorem State.setBSZ_iv (v : Byte) : (s.setBSZ v).iv = s.iv := rfl
@[simp] theorem State.setBSZ_ivLen (v : Byte) : (s.setBSZ v).ivLen = s.ivLen := rfl
@[simp] theorem State.setBSZ_bsz (v : Byte) : (s.setBSZ v).bsz = v := rfl
@[simp] theorem State.setBSZ_din (v : Byte) : (s.setBSZ v).din = s.din := rfl
@[simp] theorem State.setBSZ_dinLen (v : Byte) : (s.setBSZ v).dinLen = s.dinLen := rfl
@[simp] theorem State.setBSZ_cmd (v : Byte) : (s.setBSZ v).cmd = s.cmd := rfl
@[simp] theorem State.setBSZ_dout (v : Byte) : (s.setBSZ v).dout = s.dout := rfl
@[simp] theorem State.setBSZ_doutLen (v : Byte) : (s.setBSZ v).doutLen = s.doutLen := rfl
@[simp] theorem State.setBSZ_status (v : Byte) : (s.setBSZ v).status = s.status := rfl
@[simp] theorem State.setBSZ_blk (v : Byte) : (s.setBSZ v).blk = s.blk := rfl
@[simp] theorem State.setBSZ_nblk (v : Byte) : (s.setBSZ v).nblk = s.nblk := rfl
@[simp] theorem State.setBSZ_chain (v : Byte) : (s.setBSZ v).chain = s.chain := rfl
@[simp] theorem State.setBSZ_padn (v : Byte) : (s.setBSZ v).padn = s.padn := rfl
@[simp] theorem State.setBSZ_inbox (v : Byte) : (s.setBSZ v).inbox = s.inbox := rfl
@[simp] theorem State.setBSZ_replies (v : Byte) : (s.setBSZ v).replies = s.replies := rfl
@[simp] theorem State.setBSZ_freeCount (v : Byte) : (s.setBSZ v).freeCount = s.freeCount := rfl

@[simp] theorem State.accept_key (w : Byte) : (s.accept w).key = s.key := rfl
@[simp] theorem State.accept_keyLen (w : Byte) : (s.accept w).keyLen = s.keyLen := rfl
@[simp] theorem State.accept_iv (w : Byte) : (s.accept w).iv = s.iv := rfl
@[simp] theorem State.accept_ivLen (w : Byte) : (s.accept w).ivLen = s.ivLen := rfl
@[simp] theorem State.accept_bsz (w : Byte) : (s.accept w).bsz = s.bsz := rfl
@[simp] theorem State.accept_din (w : Byte) : (s.accept w).din = s.din := rfl
@[simp] theorem State.accept_dinLen (w : Byte) : (s.accept w).dinLen = s.dinLen := rfl
@[simp] theorem State.accept_cmd (w : Byte) : (s.accept w).cmd = w := rfl
@[simp] theorem State.accept_dout (w : Byte) : (s.accept w).dout = [] := rfl
@[simp] theorem State.accept_doutLen (w : Byte) : (s.accept w).doutLen = 0 := rfl
@[simp] theorem State.accept_status (w : Byte) : (s.accept w).status = statusBusy := rfl
@[simp] theorem State.accept_blk (w : Byte) : (s.accept w).blk = s.blk := rfl
@[simp] theorem State.accept_nblk (w : Byte) : (s.accept w).nblk = s.nblk := rfl
@[simp] theorem State.accept_chain (w : Byte) : (s.accept w).chain = s.chain := rfl
@[simp] theorem State.accept_padn (w : Byte) : (s.accept w).padn = s.padn := rfl
@[simp] theorem State.accept_inbox (w : Byte) : (s.accept w).inbox = s.inbox := rfl
@[simp] theorem State.accept_replies (w : Byte) : (s.accept w).replies = s.replies := rfl
@[simp] theorem State.accept_freeCount (w : Byte) : (s.accept w).freeCount = s.freeCount := rfl

@[simp] theorem State.returnResult_key (v : ByteSeq) : (s.returnResult v).key = s.key := rfl
@[simp] theorem State.returnResult_keyLen (v : ByteSeq) : (s.returnResult v).keyLen = s.keyLen := rfl
@[simp] theorem State.returnResult_iv (v : ByteSeq) : (s.returnResult v).iv = s.iv := rfl
@[simp] theorem State.returnResult_ivLen (v : ByteSeq) : (s.returnResult v).ivLen = s.ivLen := rfl
@[simp] theorem State.returnResult_bsz (v : ByteSeq) : (s.returnResult v).bsz = s.bsz := rfl
@[simp] theorem State.returnResult_din (v : ByteSeq) : (s.returnResult v).din = s.din := rfl
@[simp] theorem State.returnResult_dinLen (v : ByteSeq) : (s.returnResult v).dinLen = s.dinLen := rfl
@[simp] theorem State.returnResult_cmd (v : ByteSeq) : (s.returnResult v).cmd = s.cmd := rfl
@[simp] theorem State.returnResult_dout (v : ByteSeq) : (s.returnResult v).dout = Memory.write s.dout 0 v := rfl
@[simp] theorem State.returnResult_doutLen (v : ByteSeq) : (s.returnResult v).doutLen = v.length := rfl
@[simp] theorem State.returnResult_status (v : ByteSeq) : (s.returnResult v).status = statusOk := rfl
@[simp] theorem State.returnResult_blk (v : ByteSeq) : (s.returnResult v).blk = s.blk := rfl
@[simp] theorem State.returnResult_nblk (v : ByteSeq) : (s.returnResult v).nblk = s.nblk := rfl
@[simp] theorem State.returnResult_chain (v : ByteSeq) : (s.returnResult v).chain = s.chain := rfl
@[simp] theorem State.returnResult_padn (v : ByteSeq) : (s.returnResult v).padn = s.padn := rfl
@[simp] theorem State.returnResult_inbox (v : ByteSeq) : (s.returnResult v).inbox = s.inbox := rfl
@[simp] theorem State.returnResult_replies (v : ByteSeq) : (s.returnResult v).replies = s.replies := rfl
@[simp] theorem State.returnResult_freeCount (v : ByteSeq) : (s.returnResult v).freeCount = s.freeCount := rfl

@[simp] theorem State.raise_key (e : CmdError) : (s.raise e).key = s.key := rfl
@[simp] theorem State.raise_keyLen (e : CmdError) : (s.raise e).keyLen = s.keyLen := rfl
@[simp] theorem State.raise_iv (e : CmdError) : (s.raise e).iv = s.iv := rfl
@[simp] theorem State.raise_ivLen (e : CmdError) : (s.raise e).ivLen = s.ivLen := rfl
@[simp] theorem State.raise_bsz (e : CmdError) : (s.raise e).bsz = s.bsz := rfl
@[simp] theorem State.raise_din (e : CmdError) : (s.raise e).din = s.din := rfl
@[simp] theorem State.raise_dinLen (e : CmdError) : (s.raise e).dinLen = s.dinLen := rfl
@[simp] theorem State.raise_cmd (e : CmdError) : (s.raise e).cmd = s.cmd := rfl
@[simp] theorem State.raise_dout (e : CmdError) : (s.raise e).dout = [] := rfl
@[simp] theorem State.raise_doutLen (e : CmdError) : (s.raise e).doutLen = 0 := rfl
@[simp] theorem State.raise_status (e : CmdError) : (s.raise e).status = statusError e := rfl
@[simp] theorem State.raise_blk (e : CmdError) : (s.raise e).blk = s.blk := rfl
@[simp] theorem State.raise_nblk (e : CmdError) : (s.raise e).nblk = s.nblk := rfl
@[simp] theorem State.raise_chain (e : CmdError) : (s.raise e).chain = s.chain := rfl
@[simp] theorem State.raise_padn (e : CmdError) : (s.raise e).padn = s.padn := rfl
@[simp] theorem State.raise_inbox (e : CmdError) : (s.raise e).inbox = s.inbox := rfl
@[simp] theorem State.raise_replies (e : CmdError) : (s.raise e).replies = s.replies := rfl
@[simp] theorem State.raise_freeCount (e : CmdError) : (s.raise e).freeCount = s.freeCount := rfl

@[simp] theorem State.freeSequencer_key : s.freeSequencer.key = s.key := rfl
@[simp] theorem State.freeSequencer_keyLen : s.freeSequencer.keyLen = s.keyLen := rfl
@[simp] theorem State.freeSequencer_iv : s.freeSequencer.iv = s.iv := rfl
@[simp] theorem State.freeSequencer_ivLen : s.freeSequencer.ivLen = s.ivLen := rfl
@[simp] theorem State.freeSequencer_bsz : s.freeSequencer.bsz = s.bsz := rfl
@[simp] theorem State.freeSequencer_din : s.freeSequencer.din = s.din := rfl
@[simp] theorem State.freeSequencer_dinLen : s.freeSequencer.dinLen = s.dinLen := rfl
@[simp] theorem State.freeSequencer_cmd : s.freeSequencer.cmd = s.cmd := rfl
@[simp] theorem State.freeSequencer_dout : s.freeSequencer.dout = s.dout := rfl
@[simp] theorem State.freeSequencer_doutLen : s.freeSequencer.doutLen = s.doutLen := rfl
@[simp] theorem State.freeSequencer_status : s.freeSequencer.status = s.status := rfl
@[simp] theorem State.freeSequencer_blk : s.freeSequencer.blk = Config.freeBlk s.freeCount := rfl
@[simp] theorem State.freeSequencer_nblk : s.freeSequencer.nblk = Config.freeNblk s.freeCount := rfl
@[simp] theorem State.freeSequencer_chain : s.freeSequencer.chain = s.chain := rfl
@[simp] theorem State.freeSequencer_padn : s.freeSequencer.padn = Config.freePadn s.freeCount := rfl
@[simp] theorem State.freeSequencer_inbox : s.freeSequencer.inbox = s.inbox := rfl
@[simp] theorem State.freeSequencer_replies : s.freeSequencer.replies = s.replies := rfl
@[simp] theorem State.freeSequencer_freeCount : s.freeSequencer.freeCount = s.freeCount + 1 := rfl

@[simp] theorem State.freeSequencerAndChain_key : s.freeSequencerAndChain.key = s.key := rfl
@[simp] theorem State.freeSequencerAndChain_keyLen : s.freeSequencerAndChain.keyLen = s.keyLen := rfl
@[simp] theorem State.freeSequencerAndChain_iv : s.freeSequencerAndChain.iv = s.iv := rfl
@[simp] theorem State.freeSequencerAndChain_ivLen : s.freeSequencerAndChain.ivLen = s.ivLen := rfl
@[simp] theorem State.freeSequencerAndChain_bsz : s.freeSequencerAndChain.bsz = s.bsz := rfl
@[simp] theorem State.freeSequencerAndChain_din : s.freeSequencerAndChain.din = s.din := rfl
@[simp] theorem State.freeSequencerAndChain_dinLen : s.freeSequencerAndChain.dinLen = s.dinLen := rfl
@[simp] theorem State.freeSequencerAndChain_cmd : s.freeSequencerAndChain.cmd = s.cmd := rfl
@[simp] theorem State.freeSequencerAndChain_dout : s.freeSequencerAndChain.dout = s.dout := rfl
@[simp] theorem State.freeSequencerAndChain_doutLen : s.freeSequencerAndChain.doutLen = s.doutLen := rfl
@[simp] theorem State.freeSequencerAndChain_status : s.freeSequencerAndChain.status = s.status := rfl
@[simp] theorem State.freeSequencerAndChain_blk : s.freeSequencerAndChain.blk = Config.freeBlk s.freeCount := rfl
@[simp] theorem State.freeSequencerAndChain_nblk : s.freeSequencerAndChain.nblk = Config.freeNblk s.freeCount := rfl
@[simp] theorem State.freeSequencerAndChain_chain : s.freeSequencerAndChain.chain = Config.freeChain s.freeCount := rfl
@[simp] theorem State.freeSequencerAndChain_padn : s.freeSequencerAndChain.padn = Config.freePadn s.freeCount := rfl
@[simp] theorem State.freeSequencerAndChain_inbox : s.freeSequencerAndChain.inbox = s.inbox := rfl
@[simp] theorem State.freeSequencerAndChain_replies : s.freeSequencerAndChain.replies = s.replies := rfl
@[simp] theorem State.freeSequencerAndChain_freeCount : s.freeSequencerAndChain.freeCount = s.freeCount + 1 := rfl

@[simp] theorem State.answer_key (r : Reply) : (s.answer r).key = s.key := rfl
@[simp] theorem State.answer_keyLen (r : Reply) : (s.answer r).keyLen = s.keyLen := rfl
@[simp] theorem State.answer_iv (r : Reply) : (s.answer r).iv = s.iv := rfl
@[simp] theorem State.answer_ivLen (r : Reply) : (s.answer r).ivLen = s.ivLen := rfl
@[simp] theorem State.answer_bsz (r : Reply) : (s.answer r).bsz = s.bsz := rfl
@[simp] theorem State.answer_din (r : Reply) : (s.answer r).din = s.din := rfl
@[simp] theorem State.answer_dinLen (r : Reply) : (s.answer r).dinLen = s.dinLen := rfl
@[simp] theorem State.answer_cmd (r : Reply) : (s.answer r).cmd = s.cmd := rfl
@[simp] theorem State.answer_dout (r : Reply) : (s.answer r).dout = s.dout := rfl
@[simp] theorem State.answer_doutLen (r : Reply) : (s.answer r).doutLen = s.doutLen := rfl
@[simp] theorem State.answer_status (r : Reply) : (s.answer r).status = s.status := rfl
@[simp] theorem State.answer_blk (r : Reply) : (s.answer r).blk = s.blk := rfl
@[simp] theorem State.answer_nblk (r : Reply) : (s.answer r).nblk = s.nblk := rfl
@[simp] theorem State.answer_chain (r : Reply) : (s.answer r).chain = s.chain := rfl
@[simp] theorem State.answer_padn (r : Reply) : (s.answer r).padn = s.padn := rfl
@[simp] theorem State.answer_inbox (r : Reply) : (s.answer r).inbox = s.inbox := rfl
@[simp] theorem State.answer_replies (r : Reply) : (s.answer r).replies = s.replies ++ [r] := rfl
@[simp] theorem State.answer_freeCount (r : Reply) : (s.answer r).freeCount = s.freeCount := rfl

@[simp] theorem State.resetEngine_key : s.resetEngine.key = State.reset.key := rfl
@[simp] theorem State.resetEngine_keyLen : s.resetEngine.keyLen = State.reset.keyLen := rfl
@[simp] theorem State.resetEngine_iv : s.resetEngine.iv = State.reset.iv := rfl
@[simp] theorem State.resetEngine_ivLen : s.resetEngine.ivLen = State.reset.ivLen := rfl
@[simp] theorem State.resetEngine_bsz : s.resetEngine.bsz = State.reset.bsz := rfl
@[simp] theorem State.resetEngine_din : s.resetEngine.din = State.reset.din := rfl
@[simp] theorem State.resetEngine_dinLen : s.resetEngine.dinLen = State.reset.dinLen := rfl
@[simp] theorem State.resetEngine_cmd : s.resetEngine.cmd = State.reset.cmd := rfl
@[simp] theorem State.resetEngine_dout : s.resetEngine.dout = State.reset.dout := rfl
@[simp] theorem State.resetEngine_doutLen : s.resetEngine.doutLen = State.reset.doutLen := rfl
@[simp] theorem State.resetEngine_status : s.resetEngine.status = State.reset.status := rfl
@[simp] theorem State.resetEngine_blk : s.resetEngine.blk = State.reset.blk := rfl
@[simp] theorem State.resetEngine_nblk : s.resetEngine.nblk = State.reset.nblk := rfl
@[simp] theorem State.resetEngine_chain : s.resetEngine.chain = State.reset.chain := rfl
@[simp] theorem State.resetEngine_padn : s.resetEngine.padn = State.reset.padn := rfl
@[simp] theorem State.resetEngine_inbox : s.resetEngine.inbox = s.inbox := rfl
@[simp] theorem State.resetEngine_replies : s.resetEngine.replies = s.replies := rfl
@[simp] theorem State.resetEngine_freeCount : s.resetEngine.freeCount = s.freeCount := rfl

@[simp] theorem State.putBlock_key (y : Block) : (s.putBlock y).key = s.key := rfl
@[simp] theorem State.putBlock_keyLen (y : Block) : (s.putBlock y).keyLen = s.keyLen := rfl
@[simp] theorem State.putBlock_iv (y : Block) : (s.putBlock y).iv = s.iv := rfl
@[simp] theorem State.putBlock_ivLen (y : Block) : (s.putBlock y).ivLen = s.ivLen := rfl
@[simp] theorem State.putBlock_bsz (y : Block) : (s.putBlock y).bsz = s.bsz := rfl
@[simp] theorem State.putBlock_din (y : Block) : (s.putBlock y).din = s.din := rfl
@[simp] theorem State.putBlock_dinLen (y : Block) : (s.putBlock y).dinLen = s.dinLen := rfl
@[simp] theorem State.putBlock_cmd (y : Block) : (s.putBlock y).cmd = s.cmd := rfl
@[simp] theorem State.putBlock_dout (y : Block) : (s.putBlock y).dout = Memory.write s.dout (16 * s.blk) y.toList := rfl
@[simp] theorem State.putBlock_doutLen (y : Block) : (s.putBlock y).doutLen = s.doutLen := rfl
@[simp] theorem State.putBlock_status (y : Block) : (s.putBlock y).status = s.status := rfl
@[simp] theorem State.putBlock_blk (y : Block) : (s.putBlock y).blk = s.blk + 1 := rfl
@[simp] theorem State.putBlock_nblk (y : Block) : (s.putBlock y).nblk = s.nblk := rfl
@[simp] theorem State.putBlock_chain (y : Block) : (s.putBlock y).chain = s.chain := rfl
@[simp] theorem State.putBlock_padn (y : Block) : (s.putBlock y).padn = s.padn := rfl
@[simp] theorem State.putBlock_inbox (y : Block) : (s.putBlock y).inbox = s.inbox := rfl
@[simp] theorem State.putBlock_replies (y : Block) : (s.putBlock y).replies = s.replies := rfl
@[simp] theorem State.putBlock_freeCount (y : Block) : (s.putBlock y).freeCount = s.freeCount := rfl

end Sys2Proof.Machine
end

