-- ==== Sys2Proof/Laws/Operands.lean ====
section
/-!
SUPPORT. Laws of reads, blocks and XOR: what a buffer reads as after it is filled, and that cutting a
sequence into blocks and joining the blocks are inverse to each other.
-/

namespace Sys2Proof.Machine

@[simp] theorem State.length_memRead (s : State) (sp : Space) (off n : Nat) :
    (s.memRead sp off n).length = n := by simp [State.memRead]

@[simp] theorem State.length_data (s : State) : s.data.length = s.dinLen := by simp [State.data]

@[simp] theorem State.length_out (s : State) : s.out.length = s.doutLen := by simp [State.out]

/-- A read depends on its own buffer alone. -/
theorem State.memRead_congr {s t : State} {sp : Space} (h : s.space sp = t.space sp) (off n : Nat) :
    s.memRead sp off n = t.memRead sp off n := by
  simp [State.memRead, State.byteAt, h]

theorem State.readBlock_congr {s t : State} {sp : Space} (h : s.space sp = t.space sp) (off : Nat) :
    s.readBlock sp off = t.readBlock sp off := by
  simp [State.readBlock, State.byteAt, h]

theorem State.getElem_memRead (s : State) (sp : Space) (off n j : Nat)
    (h : j < (s.memRead sp off n).length) : (s.memRead sp off n)[j] = s.byteAt sp (off + j) := by
  simp [State.memRead]

/-- What a byte of a buffer is after a sequence has been stored there (20_memory R53). -/
theorem byteAt_of_write {t : State} {sp : Space} {m : Memory} {off : Nat} {v : ByteSeq}
    (h : t.space sp = Memory.write m off v) (b : Nat) :
    t.byteAt sp b = if hb : off ≤ b ∧ b < off + v.length then v[b - off]'(by omega)
      else (Memory.lookup m b).getD (Config.unspecifiedByte sp b) := by
  rw [State.byteAt, h, Memory.lookup_write]
  split
  · rw [List.getElem?_eq_getElem (by omega)]; rfl
  · rfl

/-- A buffer that was filled with `v` reads `v` back (20_memory R53, R56 to R58, 30_encoding R84). -/
theorem memRead_of_fill {t : State} {sp : Space} {m : Memory} {v : ByteSeq}
    (h : t.space sp = Memory.write m 0 v) : t.memRead sp 0 v.length = v := by
  apply List.ext_getElem (by simp)
  intro j h1 h2
  rw [State.getElem_memRead, byteAt_of_write h, dif_pos (by omega)]
  congr 1
  omega

@[simp] theorem out_returnResult (s : State) (v : ByteSeq) : (s.returnResult v).out = v :=
  memRead_of_fill (t := s.returnResult v) (sp := .dout) (m := s.dout) rfl

@[simp] theorem out_raise (s : State) (e : CmdError) : (s.raise e).out = [] := rfl

@[simp] theorem out_freeSequencer (s : State) : s.freeSequencer.out = s.out := rfl

@[simp] theorem out_freeSequencerAndChain (s : State) : s.freeSequencerAndChain.out = s.out := rfl

@[simp] theorem data_loadData (s : State) (v : ByteSeq) : (s.loadData v).data = v :=
  memRead_of_fill (t := s.loadData v) (sp := .din) (m := []) rfl

@[simp] theorem toList_readBlock (s : State) (sp : Space) (off : Nat) :
    (s.readBlock sp off).toList = s.memRead sp off 16 := by
  apply List.ext_getElem (by simp)
  intro j h1 h2
  simp [State.readBlock, State.memRead]

@[simp] theorem getElem_xorBlock (x y : Block) (j : Nat) (h : j < 16) :
    (xorBlock x y)[j] = x[j] ^^^ y[j] := by simp [xorBlock]

@[simp] theorem getElem_blk (x : ByteSeq) (i j : Nat) (h : j < 16) :
    (blk x i)[j] = x.getD (16 * i + j) 0 := by simp [blk]

@[simp] theorem getElem_readBlock (s : State) (sp : Space) (off j : Nat) (h : j < 16) :
    (s.readBlock sp off)[j] = s.byteAt sp (off + j) := by simp [State.readBlock]

/-- XOR with the same block twice changes nothing (42_cbc R110). -/
theorem xorBlock_cancel (x y : Block) : xorBlock (xorBlock x y) y = x := by
  ext j hj : 1
  simp

@[simp] theorem joinBlocks_nil : joinBlocks [] = [] := rfl

@[simp] theorem joinBlocks_cons (b : Block) (bs : List Block) :
    joinBlocks (b :: bs) = b.toList ++ joinBlocks bs := rfl

@[simp] theorem joinBlocks_append (as bs : List Block) :
    joinBlocks (as ++ bs) = joinBlocks as ++ joinBlocks bs := by simp [joinBlocks]

@[simp] theorem length_joinBlocks (bs : List Block) : (joinBlocks bs).length = 16 * bs.length := by
  induction bs with
  | nil => rfl
  | cons b rest ih => simp [ih]; omega

@[simp] theorem length_blocks (x : ByteSeq) : (blocks x).length = x.length / 16 := by simp [blocks]

@[simp] theorem getElem_blocks (x : ByteSeq) (i : Nat) (h : i < (blocks x).length) :
    (blocks x)[i] = blk x i := by simp [blocks]

theorem blk_append_zero (b : Block) (x : ByteSeq) : blk (b.toList ++ x) 0 = b := by
  ext j hj : 1
  rw [getElem_blk, List.getD_eq_getElem?_getD, List.getElem?_append_left (by simpa using hj)]
  simp [hj]

theorem blk_append_succ (b : Block) (x : ByteSeq) (i : Nat) : blk (b.toList ++ x) (i + 1) = blk x i := by
  ext j hj : 1
  rw [getElem_blk, getElem_blk, List.getD_eq_getElem?_getD, List.getD_eq_getElem?_getD,
    List.getElem?_append_right (by simp; omega)]
  congr 2
  simp
  omega

/-- Cutting joined blocks gives the blocks back. -/
@[simp] theorem blocks_joinBlocks (bs : List Block) : blocks (joinBlocks bs) = bs := by
  apply List.ext_getElem (by simp)
  intro i h1 h2
  rw [getElem_blocks]
  induction bs generalizing i with
  | nil => simp at h2
  | cons b rest ih =>
    rw [joinBlocks_cons]
    cases i with
    | zero => rw [blk_append_zero]; rfl
    | succ i =>
      rw [blk_append_succ]
      simp only [List.getElem_cons_succ]
      exact ih i (by simpa using h2) (by simpa using h2)

theorem blk_joinBlocks (bs : List Block) (i : Nat) (h : i < bs.length) : blk (joinBlocks bs) i = bs[i] := by
  have h' : i < (blocks (joinBlocks bs)).length := by simpa using h
  rw [← getElem_blocks _ i h']
  simp

/-- Byte `16*i + j` of joined blocks is byte `j` of block `i`. -/
theorem getElem?_joinBlocks (bs : List Block) (i j : Nat) (hi : i < bs.length) (hj : j < 16) :
    (joinBlocks bs)[16 * i + j]? = some (bs[i][j]) := by
  have h : 16 * i + j < (joinBlocks bs).length := by simp; omega
  have hb := blk_joinBlocks bs i hi
  have := congrArg (fun b : Block => b[j]) hb
  simp only [getElem_blk, List.getD_eq_getElem?_getD, List.getElem?_eq_getElem h, Option.getD_some] at this
  rw [List.getElem?_eq_getElem h, this]

/-- Joining the blocks of a block-aligned sequence gives the sequence back. -/
theorem joinBlocks_blocks {x : ByteSeq} (h : x.length % 16 = 0) : joinBlocks (blocks x) = x := by
  apply List.ext_getElem?
  intro n
  by_cases hn : n < x.length
  · have hi : n / 16 < (blocks x).length := by simp; omega
    have hj : n % 16 < 16 := Nat.mod_lt _ (by omega)
    have := getElem?_joinBlocks (blocks x) (n / 16) (n % 16) hi hj
    rw [Nat.div_add_mod] at this
    rw [this, getElem_blocks, getElem_blk, List.getD_eq_getElem?_getD, Nat.div_add_mod,
      List.getElem?_eq_getElem hn]
    rfl
  · rw [List.getElem?_eq_none (by simp; omega), List.getElem?_eq_none (by omega)]

/-- The first blocks of a sequence are those of its aligned first part. -/
theorem blocks_append {x y : ByteSeq} (h : x.length % 16 = 0) : blocks (x ++ y) = blocks x ++ blocks y := by
  conv_lhs => rw [← joinBlocks_blocks h]
  generalize blocks x = bs
  induction bs with
  | nil => rfl
  | cons b rest ih =>
    rw [joinBlocks_cons, List.append_assoc, List.cons_append, ← ih]
    generalize joinBlocks rest ++ y = z
    apply List.ext_getElem (by simp)
    intro i h1 h2
    rw [getElem_blocks]
    cases i with
    | zero => rw [blk_append_zero]; rfl
    | succ i => rw [blk_append_succ]; simp

/-- Block `i` of a buffer that was filled with joined blocks is the `i`-th of them. -/
theorem readBlock_of_join {t : State} {sp : Space} {m : Memory} {bs : List Block}
    (h : t.space sp = Memory.write m 0 (joinBlocks bs)) (i : Nat) (hi : i < bs.length) :
    t.readBlock sp (16 * i) = bs[i] := by
  ext j hj : 1
  have hlt : 16 * i + j < (joinBlocks bs).length := by simp; omega
  rw [getElem_readBlock, byteAt_of_write h, dif_pos (by omega)]
  have := getElem?_joinBlocks bs i j hi hj
  rw [List.getElem?_eq_getElem hlt] at this
  simpa using this

/-- The blocks of the data operand are what `DIN` holds at offsets 0, 16, 32, ... -/
theorem blk_data (s : State) (i : Nat) (h : 16 * i + 16 ≤ s.dinLen) : blk s.data i = s.readBlock .din (16 * i) := by
  ext j hj : 1
  rw [getElem_blk, getElem_readBlock, List.getD_eq_getElem?_getD,
    List.getElem?_eq_getElem (by simp; omega)]
  simp [State.data, State.memRead]

end Sys2Proof.Machine
end

