-- ==== Sys2Proof/Laws/Status.lean ====
section
/-!
SUPPORT. The fields of every `STATUS` value the engine writes.
-/

namespace Sys2Proof.Machine

@[simp] theorem statusBusy_eq : statusBusy = 0x01 := by decide
@[simp] theorem statusOk_eq : statusOk = 0x02 := by decide
@[simp] theorem statusError_invalidInput : statusError .invalidInput = 0x06 := by decide
@[simp] theorem statusError_badLength : statusError .badLength = 0x0A := by decide
@[simp] theorem statusError_badPadding : statusError .badPadding = 0x0E := by decide
@[simp] theorem statusError_illegalCmd : statusError .illegalCmd = 0x12 := by decide

/-- The status of an error is one of the four of 60_exceptions R127. -/
theorem statusError_cases (e : CmdError) :
    statusError e = 0x06 ∨ statusError e = 0x0A ∨ statusError e = 0x0E ∨ statusError e = 0x12 := by
  cases e <;> decide

theorem busy_of_status {s : State} {v : Byte} (h : s.status = v) : s.busy = v.getLsbD 0 := by
  simp [State.busy, h]

theorem done_of_status {s : State} {v : Byte} (h : s.status = v) : s.done = v.getLsbD 1 := by
  simp [State.done, h]

theorem err_of_status {s : State} {v : Byte} (h : s.status = v) : s.err = v.extractLsb 4 2 := by
  simp [State.err, h]

/-- Between transactions the engine is not busy. -/
theorem LegalStatus.not_busy {s : State} (h : LegalStatus s.status) : s.busy = false := by
  rcases h with h | h | h | h | h | h <;> rw [busy_of_status h] <;> decide

end Sys2Proof.Machine
end

