-- ==== Sys2Proof/Laws/Padding.lean ====
section
/-!
SUPPORT. What `pad` and `unpad` answer, said once.
-/

namespace Sys2Proof.Machine

theorem padCount_pos {bs : Nat} (h : 1 ≤ bs) (len : Nat) : 1 ≤ padCount len bs := by
  have := Nat.mod_lt len (show 0 < bs by omega)
  unfold padCount; omega

theorem padCount_le (len bs : Nat) : padCount len bs ≤ bs := Nat.sub_le _ _

@[simp] theorem length_padBytes (data : ByteSeq) (bs : Nat) :
    (padBytes data bs).length = data.length + padCount data.length bs := by simp [padBytes]

/-- The padded length is a multiple of the block size (40_padding R94 (ii)). -/
theorem padded_length {bs : Nat} (h : 1 ≤ bs) (len : Nat) : len + padCount len bs = bs * (len / bs + 1) := by
  have h1 := Nat.mod_lt len (show 0 < bs by omega)
  have h2 := Nat.div_add_mod len bs
  have h3 : bs * (len / bs + 1) = bs * (len / bs) + bs := by ring
  unfold padCount; omega

theorem getElem_padBytes_data (data : ByteSeq) (bs j : Nat) (h : j < data.length) :
    (padBytes data bs)[j]'(by simp; omega) = data[j] := by simp [padBytes, h]

theorem getElem_padBytes_pad (data : ByteSeq) (bs j : Nat) (h : data.length ≤ j)
    (h' : j < (padBytes data bs).length) :
    (padBytes data bs)[j] = BitVec.ofNat 8 (padCount data.length bs) := by
  simp [padBytes, List.getElem_append_right h]

theorem unpadBytes_nil (bs : Nat) : unpadBytes [] bs = .error .badLength := rfl

/-- `unpad` of a non-empty sequence, its checks in the order of 40_padding R91. -/
theorem unpadBytes_append (front : ByteSeq) (last : Byte) (bs : Nat) :
    unpadBytes (front ++ [last]) bs =
      if last.toNat = 0 ∨ bs < last.toNat then .error .badLength
      else if front.length + 1 < last.toNat then .error .badLength
      else if ((front ++ [last]).drop (front.length + 1 - last.toNat)).any (· != last) then .error .badPadding
      else .ok ((front ++ [last]).take (front.length + 1 - last.toNat)) := by
  simp [unpadBytes]

theorem length_encryptSource (p : Bool) (data : ByteSeq) (h : p = true ∨ data.length % 16 = 0) :
    (encryptSource p data).length % 16 = 0 := by
  cases p with
  | false => simpa [encryptSource] using h
  | true =>
    simp only [encryptSource, if_true, length_padBytes]
    rw [padded_length (by omega)]
    omega

end Sys2Proof.Machine
end

