-- ==== Sys2Proof/Laws/Commands.lean ====
section
/-!
SUPPORT. What a command can do, said once: it completes, with the result or the error that its operands
give, and changes nothing but the result registers and the sequencer registers.
-/

namespace Sys2Proof.Machine

/-- The result or the error of a command, from its operands (40_padding R92, R93; 41_ecb R100, R101;
42_cbc R111, R112). -/
def commandResult (P : Primitive) (i : Instr) (s : State) : Except CmdError ByteSeq :=
  if invalidInput i s then .error .invalidInput
  else match i with
    | .pad => .ok (padBytes s.data s.bsz.toNat)
    | .unpad => (unpadBytes s.data s.bsz.toNat).mapError PaddingError.toCmdError
    | .ecbEncrypt p => .ok (ecbEncryptBytes P s.keyBlock (encryptSource p s.data))
    | .ecbDecrypt false => .ok (ecbDecryptBytes P s.keyBlock s.data)
    | .ecbDecrypt true =>
      (unpadBytes (ecbDecryptBytes P s.keyBlock s.data) 16).mapError PaddingError.toCmdError
    | .cbcEncrypt p => .ok (cbcEncryptBytes P s.keyBlock s.ivBlock (encryptSource p s.data))
    | .cbcDecrypt => .ok (cbcDecryptBytes P s.keyBlock s.ivBlock s.data)

/-- How a command ends: `return v` or `raise e`. -/
def State.endWith (s : State) (r : Except CmdError ByteSeq) : State :=
  match r with
  | .ok v => s.returnResult v
  | .error e => s.raise e

/-- What the end of a command leaves of the sequencer registers. -/
def leaveSequencer (i : Instr) (s : State) : State :=
  if isCipher i then (if usesChain i then s.freeSequencerAndChain else s.freeSequencer) else s

theorem deliver_eq (s : State) (r : Except PaddingError ByteSeq) :
    s.deliver r = s.endWith (r.mapError PaddingError.toCmdError) := by cases r <;> rfl

/-- Every command, over any primitive, answers the next state its operands give. -/
theorem commandWith_eq (P : Primitive) (i : Instr) (s : State) :
    commandWith P i s = .next (leaveSequencer i (s.endWith (commandResult P i s))) := by
  cases i with
  | pad =>
    by_cases h : s.bsz = 0#8 <;>
      simp [commandWith, execPad, commandResult, invalidInput, leaveSequencer, isCipher, h, State.endWith]
  | unpad =>
    by_cases h : s.bsz = 0#8 <;>
      simp [commandWith, execUnpad, commandResult, invalidInput, leaveSequencer, isCipher, h, State.endWith,
        deliver_eq]
  | ecbEncrypt p =>
    by_cases h : s.keyLen = 16#8 <;> by_cases h2 : s.dinLen % 16 = 0 <;> cases p <;>
      simp [commandWith, ecbEncryptWith, commandResult, invalidInput, leaveSequencer, isCipher, usesChain, h, h2,
        State.endWith]
  | ecbDecrypt p =>
    by_cases h : s.keyLen = 16#8 <;> by_cases h2 : s.dinLen % 16 = 0 <;> cases p <;>
      simp [commandWith, ecbDecryptWith, commandResult, invalidInput, leaveSequencer, isCipher, usesChain, h, h2,
        deliver_eq, State.endWith]
  | cbcEncrypt p =>
    by_cases h : s.keyLen = 16#8 <;> by_cases h1 : s.ivLen = 16#8 <;> by_cases h2 : s.dinLen % 16 = 0 <;> cases p <;>
      simp [commandWith, cbcEncryptWith, commandResult, invalidInput, leaveSequencer, isCipher, usesChain, h, h1, h2,
        State.endWith]
  | cbcDecrypt =>
    by_cases h : s.keyLen = 16#8 <;> by_cases h1 : s.ivLen = 16#8 <;> by_cases h2 : s.dinLen % 16 = 0 <;>
      simp [commandWith, cbcDecryptWith, commandResult, invalidInput, leaveSequencer, isCipher, usesChain, h, h1, h2,
        State.endWith]

/-- The engine's commands are those over its own primitive. -/
theorem exec_eq_commandWith (i : Instr) (s : State) : exec i s = commandWith Config.primitive i s := by
  cases i <;> rfl

/-- Every command of the engine completes. -/
theorem exec_eq (i : Instr) (s : State) :
    exec i s = .next (leaveSequencer i (s.endWith (commandResult Config.primitive i s))) := by
  rw [exec_eq_commandWith, commandWith_eq]

@[simp] theorem leaveSequencer_status (i : Instr) (s : State) : (leaveSequencer i s).status = s.status := by
  unfold leaveSequencer; split <;> [split; skip] <;> rfl
@[simp] theorem leaveSequencer_dout (i : Instr) (s : State) : (leaveSequencer i s).dout = s.dout := by
  unfold leaveSequencer; split <;> [split; skip] <;> rfl
@[simp] theorem leaveSequencer_doutLen (i : Instr) (s : State) : (leaveSequencer i s).doutLen = s.doutLen := by
  unfold leaveSequencer; split <;> [split; skip] <;> rfl
@[simp] theorem leaveSequencer_out (i : Instr) (s : State) : (leaveSequencer i s).out = s.out := by
  unfold leaveSequencer; split <;> [split; skip] <;> rfl

@[simp] theorem endWith_out (s : State) (r : Except CmdError ByteSeq) :
    (s.endWith r).out = match r with | .ok v => v | .error _ => [] := by
  cases r <;> simp [State.endWith]

/-- A result of a command over any primitive: the padding errors come from UNPAD and ECB_DECRYPT with `P = 1`
only, and IllegalCmd from none (60_exceptions R120). -/
theorem commandResult_error {P : Primitive} {i : Instr} {s : State} {e : CmdError}
    (h : commandResult P i s = .error e) :
    e = .invalidInput ∨ ((i = .unpad ∨ i = .ecbDecrypt true) ∧ (e = .badLength ∨ e = .badPadding)) := by
  have key : ∀ r : Except PaddingError ByteSeq, r.mapError PaddingError.toCmdError = .error e →
      e = .badLength ∨ e = .badPadding := by
    intro r hr
    cases r with
    | ok v => simp [Except.mapError] at hr
    | error p => cases p <;> simp [Except.mapError, PaddingError.toCmdError] at hr <;> simp [← hr]
  unfold commandResult at h
  split at h
  · left; simpa using h.symm
  · cases i with
    | unpad => exact .inr ⟨.inl rfl, key _ h⟩
    | ecbDecrypt p =>
      cases p with
      | true => exact .inr ⟨.inr rfl, key _ h⟩
      | false => simp at h
    | pad => simp at h
    | ecbEncrypt p => simp at h
    | cbcEncrypt p => simp at h
    | cbcDecrypt => simp at h

/-- What the end of a command leaves unchanged. -/
theorem leaveSequencer_endWith_frame (i : Instr) (s : State) (r : Except CmdError ByteSeq) :
    CommandFrame i s (leaveSequencer i (s.endWith r)) := by
  have h : ∀ t, t = s.endWith r → CommandFrame i s (leaveSequencer i t) := by
    intro t ht
    cases r <;> cases i <;> subst ht <;>
      exact ⟨⟨rfl, rfl, rfl, rfl, rfl, rfl, rfl⟩, rfl, ⟨rfl, rfl⟩, by simp [leaveSequencer, usesChain, isCipher, State.endWith],
        by simp [isCipher]; try exact ⟨rfl, rfl, rfl, rfl, rfl⟩⟩
  exact h _ rfl

theorem raised_of_error (i : Instr) (s : State) (e : CmdError) :
    Raised e (leaveSequencer i (s.endWith (.error e))) :=
  ⟨by simp [State.endWith]; rfl, by simp [State.endWith], by simp [State.endWith]⟩

theorem delivered_of_ok (i : Instr) (s : State) (v : ByteSeq) :
    Delivered v (leaveSequencer i (s.endWith (.ok v))) :=
  ⟨by simp [State.endWith], by simp [State.endWith], by simp [State.endWith]⟩

/-- The bytes of `DOUT` after a command that succeeded. -/
theorem byteAt_of_ok (i : Instr) (s : State) {v : ByteSeq} {j : Nat} (h : j < v.length) :
    (leaveSequencer i (s.endWith (.ok v))).byteAt .dout j = v[j] := by
  rw [byteAt_of_write (m := s.dout) (off := 0) (v := v) (by simp [State.space, State.endWith]),
    dif_pos (by omega)]
  simp

end Sys2Proof.Machine
end

