-- ==== Sys2Proof/Laws/Modes.lean ====
section
/-!
SUPPORT. Laws of the two modes: their block loops block by block, and what a command's result is once its
operands are valid.
-/

namespace Sys2Proof.Machine

@[simp] theorem length_cbcEncryptBlocks (P : Primitive) (k c : Block) (bs : List Block) :
    (cbcEncryptBlocks P k c bs).length = bs.length := by
  induction bs generalizing c <;> simp [cbcEncryptBlocks, *]

@[simp] theorem length_cbcDecryptBlocks (P : Primitive) (k c : Block) (bs : List Block) :
    (cbcDecryptBlocks P k c bs).length = bs.length := by
  induction bs generalizing c <;> simp [cbcDecryptBlocks, *]

/-- Ciphertext block `i` (42_cbc R111). -/
theorem getElem_cbcEncryptBlocks (P : Primitive) (k c : Block) (bs : List Block) (i : Nat) (h : i < bs.length) :
    (cbcEncryptBlocks P k c bs)[i]'(by simpa using h) =
      P.E k (xorBlock bs[i] (if _h : i = 0 then c else
        (cbcEncryptBlocks P k c bs)[i - 1]'(by rw [length_cbcEncryptBlocks]; omega))) := by
  induction bs generalizing c i with
  | nil => simp at h
  | cons x rest ih =>
    cases i with
    | zero => simp [cbcEncryptBlocks]
    | succ i =>
      simp only [cbcEncryptBlocks, List.getElem_cons_succ]
      rw [ih _ _ (by simpa using h)]
      congr 2
      cases i <;> simp

/-- Plaintext block `i` (42_cbc R112). -/
theorem getElem_cbcDecryptBlocks (P : Primitive) (k c : Block) (bs : List Block) (i : Nat) (h : i < bs.length) :
    (cbcDecryptBlocks P k c bs)[i]'(by simpa using h) =
      xorBlock (P.D k bs[i]) (if _h : i = 0 then c else bs[i - 1]) := by
  induction bs generalizing c i with
  | nil => simp at h
  | cons x rest ih =>
    cases i with
    | zero => simp [cbcDecryptBlocks]
    | succ i =>
      simp only [cbcDecryptBlocks, List.getElem_cons_succ]
      rw [ih _ _ (by simpa using h)]
      congr 1
      cases i <;> simp

/-- The CBC loop over a message in two parts: the second goes on from the last ciphertext block. -/
theorem cbcEncryptBlocks_append (P : Primitive) (k c : Block) (as bs : List Block) :
    cbcEncryptBlocks P k c (as ++ bs) =
      cbcEncryptBlocks P k c as ++ cbcEncryptBlocks P k ((cbcEncryptBlocks P k c as).getLast?.getD c) bs := by
  induction as generalizing c with
  | nil => rfl
  | cons x rest ih =>
    simp only [List.cons_append, cbcEncryptBlocks]
    rw [ih]
    congr 3
    cases cbcEncryptBlocks P k (P.E k (xorBlock x c)) rest with
    | nil => rfl
    | cons y ys => simp [List.getLast?_cons_cons]; simp [List.getLast?_cons]

theorem cbcDecryptBlocks_cbcEncryptBlocks {P : Primitive} (h : P.Inverse) (k c : Block) (bs : List Block) :
    cbcDecryptBlocks P k c (cbcEncryptBlocks P k c bs) = bs := by
  induction bs generalizing c with
  | nil => rfl
  | cons x rest ih => simp only [cbcEncryptBlocks, cbcDecryptBlocks]; rw [h, xorBlock_cancel, ih]

theorem cbcDecryptBytes_cbcEncryptBytes {P : Primitive} (h : P.Inverse) (k c : Block) {x : ByteSeq}
    (hx : x.length % 16 = 0) : cbcDecryptBytes P k c (cbcEncryptBytes P k c x) = x := by
  unfold cbcDecryptBytes cbcEncryptBytes
  rw [blocks_joinBlocks, cbcDecryptBlocks_cbcEncryptBlocks h, joinBlocks_blocks hx]

theorem ecbDecryptBytes_ecbEncryptBytes {P : Primitive} (h : P.Inverse) (k : Block) {x : ByteSeq}
    (hx : x.length % 16 = 0) : ecbDecryptBytes P k (ecbEncryptBytes P k x) = x := by
  unfold ecbDecryptBytes ecbEncryptBytes
  rw [blocks_joinBlocks, List.map_map]
  have hid : P.D k ∘ P.E k = id := by funext b; exact h k b
  rw [hid, List.map_id, joinBlocks_blocks hx]

/-! What a cipher command's result is once its operands are valid. -/

theorem commandResult_ecbEncrypt (P : Primitive) (p : Bool) {s : State} (hk : s.keyLen = 16)
    (hp : p = true ∨ s.dinLen % 16 = 0) :
    commandResult P (.ecbEncrypt p) s = .ok (ecbEncryptBytes P s.keyBlock (encryptSource p s.data)) := by
  have : invalidInput (.ecbEncrypt p) s = false := by cases p <;> simp_all [invalidInput]
  simp [commandResult, this]

theorem commandResult_ecbDecrypt (P : Primitive) {s : State} (hk : s.keyLen = 16) (hp : s.dinLen % 16 = 0) :
    commandResult P (.ecbDecrypt false) s = .ok (ecbDecryptBytes P s.keyBlock s.data) := by
  have : invalidInput (.ecbDecrypt false) s = false := by simp_all [invalidInput]
  simp [commandResult, this]

theorem commandResult_ecbDecrypt_unpad (P : Primitive) {s : State} (hk : s.keyLen = 16)
    (hp : s.dinLen % 16 = 0) :
    commandResult P (.ecbDecrypt true) s =
      (unpadBytes (ecbDecryptBytes P s.keyBlock s.data) 16).mapError PaddingError.toCmdError := by
  have : invalidInput (.ecbDecrypt true) s = false := by simp_all [invalidInput]
  simp [commandResult, this]

theorem commandResult_cbcEncrypt (P : Primitive) (p : Bool) {s : State} (hk : s.keyLen = 16)
    (hi : s.ivLen = 16) (hp : p = true ∨ s.dinLen % 16 = 0) :
    commandResult P (.cbcEncrypt p) s =
      .ok (cbcEncryptBytes P s.keyBlock s.ivBlock (encryptSource p s.data)) := by
  have : invalidInput (.cbcEncrypt p) s = false := by cases p <;> simp_all [invalidInput]
  simp [commandResult, this]

theorem commandResult_cbcDecrypt (P : Primitive) {s : State} (hk : s.keyLen = 16) (hi : s.ivLen = 16)
    (hp : s.dinLen % 16 = 0) :
    commandResult P .cbcDecrypt s = .ok (cbcDecryptBytes P s.keyBlock s.ivBlock s.data) := by
  have : invalidInput .cbcDecrypt s = false := by simp_all [invalidInput]
  simp [commandResult, this]

theorem length_encryptSource_data (p : Bool) (s : State) :
    (encryptSource p s.data).length = if p then 16 * (s.dinLen / 16 + 1) else s.dinLen := by
  cases p
  · simp [encryptSource]
  · simp only [encryptSource, if_true, length_padBytes, State.length_data]
    exact padded_length (by omega) _

theorem getElem_data (s : State) (j : Nat) (h : j < s.data.length) : s.data[j] = s.byteAt .din j := by
  simp [State.data, State.memRead]

/-- `Blk(Src, n)` in the whole-command view and in the per-block view (20_memory R52). -/
theorem blk_encryptSource {i : Instr} {p : Bool} (hi : i = .ecbEncrypt p ∨ i = .cbcEncrypt p) (s : State)
    (n : Nat) (h : 16 * n + 16 ≤ (encryptSource p s.data).length) :
    blk (encryptSource p s.data) n = (seqSetup i s).srcBlock n := by
  ext j hj : 1
  rw [getElem_blk, List.getD_eq_getElem?_getD, List.getElem?_eq_getElem (by omega)]
  have hn : (seqSetup i s).dinLen = s.dinLen := rfl
  have hb : (seqSetup i s).byteAt .din (16 * n + j) = s.byteAt .din (16 * n + j) := rfl
  simp [State.srcBlock, State.srcByte, hn, hb]
  cases p with
  | false =>
    simp [encryptSource] at h ⊢
    rw [if_pos (by omega), getElem_data]
  | true =>
    simp [encryptSource]
    split
    · next hlt => rw [getElem_padBytes_data _ _ _ (by simpa using hlt), getElem_data]
    · next hlt =>
      rw [getElem_padBytes_pad _ _ _ (by simp; omega)]
      rcases hi with rfl | rfl <;> simp [seqSetup, setupPadCount]

end Sys2Proof.Machine
end

