-- ==== Sys2Proof/Laws/PerInstr.lean ====
section
/-!
SUPPORT. One lemma per command about its encoding: its word has bits 7:4 zero, its `CMD[2:0]` selects it, and
it carries `P` (spec/30_encoding.md R71, R72).
-/

namespace Sys2Proof.Laws.Encoding

/-- The command's word has the field values of its row (30_encoding R71, R72). -/
def Statement (i : Instr) : Prop :=
  i.wellFormed = true ∧ cmdRSV (encode i) = 0 ∧ cmdP (encode i) = padFlagOf i ∧
    (encode i).extractLsb 2 0 = opcodeOf i ∧ cmdC (encode i) = Machine.isCipher i

theorem pad : Statement .pad := by unfold Statement; decide
theorem unpad : Statement .unpad := by unfold Statement; decide
theorem ecbEncrypt (p : Bool) : Statement (.ecbEncrypt p) := by unfold Statement; cases p <;> decide
theorem ecbDecrypt (p : Bool) : Statement (.ecbDecrypt p) := by unfold Statement; cases p <;> decide
theorem cbcEncrypt (p : Bool) : Statement (.cbcEncrypt p) := by unfold Statement; cases p <;> decide
theorem cbcDecrypt : Statement .cbcDecrypt := by unfold Statement; decide

end Sys2Proof.Laws.Encoding
end

