-- ==== Sys2Proof/Laws/Sequencer.lean ====
section
/-!
SUPPORT. Laws of the per-block view: what one block step writes and what it leaves.
-/

namespace Sys2Proof.Machine

/-- A block step changes nothing but `DOUT`, `BLK` and `CHAIN` (30_encoding R83). -/
theorem seqBlock_frame (P : Primitive) (i : Instr) (s : State) :
    OperandsKept s (seqBlock P i s) ∧ (seqBlock P i s).cmd = s.cmd ∧ HostSideKept s (seqBlock P i s) ∧
      (seqBlock P i s).nblk = s.nblk ∧ (seqBlock P i s).padn = s.padn ∧
      (seqBlock P i s).doutLen = s.doutLen ∧ (seqBlock P i s).status = s.status := by
  cases i <;> refine ⟨⟨?_, ?_, ?_, ?_, ?_, ?_, ?_⟩, ?_, ⟨?_, ?_⟩, ?_, ?_, ?_, ?_⟩ <;> simp [seqBlock]

/-- A block step of a cipher command counts one block. -/
theorem seqBlock_blk (P : Primitive) {i : Instr} (h : isCipher i = true) (s : State) :
    (seqBlock P i s).blk = s.blk + 1 := by
  cases i <;> first | (simp [isCipher] at h; done) | simp [seqBlock]

/-- The block loop, one step at a time. -/
theorem seqRun_succ (P : Primitive) (i : Instr) (n : Nat) (s : State) :
    seqRun P i (n + 1) s = if s.blk < s.nblk then seqRun P i n (seqBlock P i s) else s := rfl

/-- The bytes a block step stores, and that it leaves every other byte of `DOUT` alone (20_memory R53). -/
theorem putBlock_byteAt (s : State) (y : Block) (a : Nat) :
    (s.putBlock y).byteAt .dout a =
      if h : 16 * s.blk ≤ a ∧ a < 16 * s.blk + 16 then y[a - 16 * s.blk]'(by omega) else s.byteAt .dout a := by
  have hw : (s.putBlock y).space .dout = Memory.write s.dout (16 * s.blk) y.toList := rfl
  rw [byteAt_of_write hw]
  simp only [Vector.length_toList]
  split
  · simp
  · rfl

/-- The block just written, and every block before it. -/
theorem readBlock_putBlock (s : State) (y : Block) : (s.putBlock y).readBlock .dout (16 * s.blk) = y := by
  ext j hj : 1
  rw [getElem_readBlock, putBlock_byteAt, dif_pos (by omega)]
  congr 1
  omega

theorem readBlock_putBlock_lt (s : State) (y : Block) {j : Nat} (h : j < s.blk) :
    (s.putBlock y).readBlock .dout (16 * j) = s.readBlock .dout (16 * j) := by
  ext n hn : 1
  rw [getElem_readBlock, getElem_readBlock, putBlock_byteAt, dif_neg (by omega)]

/-- The block loop changes no operand, and neither `NBLK` nor `PADN`. -/
theorem seqRun_frame (P : Primitive) (i : Instr) (k : Nat) (s : State) :
    OperandsKept s (seqRun P i k s) ∧ (seqRun P i k s).nblk = s.nblk ∧ (seqRun P i k s).padn = s.padn := by
  induction k generalizing s with
  | zero => exact ⟨⟨rfl, rfl, rfl, rfl, rfl, rfl, rfl⟩, rfl, rfl⟩
  | succ k ih =>
    rw [seqRun_succ]
    split
    · obtain ⟨a, b, c⟩ := ih (seqBlock P i s)
      obtain ⟨f, -, -, g, h, -⟩ := seqBlock_frame P i s
      exact ⟨⟨a.1.trans f.1, a.2.trans f.2, a.3.trans f.3, a.4.trans f.4, a.5.trans f.5, a.6.trans f.6,
        a.7.trans f.7⟩, b.trans g, c.trans h⟩
    · exact ⟨⟨rfl, rfl, rfl, rfl, rfl, rfl, rfl⟩, rfl, rfl⟩

/-- One more step of the block loop, at its end. -/
theorem seqRun_snoc (P : Primitive) {i : Instr} (hc : isCipher i = true) (k : Nat) (s : State)
    (h : s.blk + k < s.nblk) : seqRun P i (k + 1) s = seqBlock P i (seqRun P i k s) := by
  induction k generalizing s with
  | zero => simp [seqRun, show s.blk < s.nblk by omega]
  | succ k ih =>
    rw [seqRun_succ, if_pos (by omega), ih, seqRun_succ P i k s, if_pos (by omega)]
    rw [seqBlock_blk P hc, (seqBlock_frame P i s).2.2.2.1]
    omega

/-- The block loop ends when `BLK = NBLK`. -/
theorem seqRun_stop (P : Primitive) (i : Instr) (k : Nat) {s : State} (h : s.nblk ≤ s.blk) :
    seqRun P i k s = s := by
  cases k with
  | zero => rfl
  | succ k => rw [seqRun_succ, if_neg (by omega)]

theorem seqRun_add (P : Primitive) (i : Instr) (j k : Nat) (s : State) :
    seqRun P i (j + k) s = seqRun P i k (seqRun P i j s) := by
  induction j generalizing s with
  | zero => simp [seqRun]
  | succ j ih =>
    rw [show j + 1 + k = (j + k) + 1 by omega, seqRun_succ, seqRun_succ P i j]
    split
    · exact ih _
    · next h => rw [seqRun_stop P i k (by omega)]

end Sys2Proof.Machine
end

