-- ==== Sys2Proof/Laws/Transactions.lean ====
section
/-!
SUPPORT. What a step can do, said once per transaction.
-/

namespace Sys2Proof.Machine

theorem step_nil {s : State} (h : s.inbox = []) : step s = .next s := by simp [step, nextTransaction, h]

theorem step_cons {s : State} {t : Txn} {rest : List Txn} (h : s.inbox = t :: rest) :
    step s = transact t { s with inbox := rest } := by simp [step, nextTransaction, h]

@[simp] theorem busy_with_inbox (s : State) (l : List Txn) : State.busy { s with inbox := l } = s.busy := rfl

/-- How Issue ends: the result or the error of the word, on the state Issue has prepared. -/
def issueResult (w : Byte) (s : State) : State :=
  match decode w with
  | .command i => leaveSequencer i ((s.accept w).endWith (commandResult Config.primitive i (s.accept w)))
  | .reserved _ => (s.accept w).raise .illegalCmd

/-- Issue always completes (60_exceptions R130). -/
theorem issueCommand_eq (w : Byte) (s : State) : issueCommand w s = .next (issueResult w s) := by
  unfold issueCommand issueResult
  cases decode w with
  | command i => exact exec_eq i _
  | reserved _ => rfl

theorem whenIdle_next {s u : State} {o : Host.Outcome State Fault Refusal} (h : whenIdle s o = .next u) :
    s.busy = false ∧ o = .next u := by
  unfold whenIdle at h
  cases hb : s.busy with
  | true => simp [hb] at h
  | false => simpa [hb] using h

theorem whenFits_next {t : Txn} {u : State} {o : Host.Outcome State Fault Refusal}
    (h : whenFits t o = .next u) : t.fits = true ∧ o = .next u := by
  unfold whenFits at h
  cases hf : t.fits with
  | true => simpa [hf] using h
  | false => simp [hf] at h

/-- The effect of a transaction that has a step: when it has one, and the state it leaves. -/
def TxnEffect (t : Txn) (s u : State) : Prop :=
  match t with
  | .loadKey v => s.busy = false ∧ v.length ≤ 255 ∧ u = s.loadKey v
  | .loadIV v => s.busy = false ∧ v.length ≤ 255 ∧ u = s.loadIV v
  | .loadData v => s.busy = false ∧ withinCapacity Config.MAXLEN v.length = true ∧ u = s.loadData v
  | .setBSZ v => s.busy = false ∧ u = s.setBSZ v
  | .issue w => s.busy = false ∧ u = issueResult w s
  | .readStatus => u = s.answer (.status s.status)
  | .readOut => s.busy = false ∧ s.done = true ∧ u = s.answer (.out s.doutLen s.out)
  | .reset => u = s.resetEngine

/-- What a transaction can do when it has a step. -/
theorem transact_next {t : Txn} {s u : State} (h : transact t s = .next u) : TxnEffect t s u := by
  cases t with
  | loadKey v =>
    obtain ⟨hb, h⟩ := whenIdle_next h
    obtain ⟨hf, h⟩ := whenFits_next h
    exact ⟨hb, by simpa [Txn.fits, withinCapacity] using hf, (Host.Outcome.next.inj h).symm⟩
  | loadIV v =>
    obtain ⟨hb, h⟩ := whenIdle_next h
    obtain ⟨hf, h⟩ := whenFits_next h
    exact ⟨hb, by simpa [Txn.fits, withinCapacity] using hf, (Host.Outcome.next.inj h).symm⟩
  | loadData v =>
    obtain ⟨hb, h⟩ := whenIdle_next h
    obtain ⟨hf, h⟩ := whenFits_next h
    exact ⟨hb, hf, (Host.Outcome.next.inj h).symm⟩
  | setBSZ v =>
    obtain ⟨hb, h⟩ := whenIdle_next h
    exact ⟨hb, (Host.Outcome.next.inj h).symm⟩
  | issue w =>
    obtain ⟨hb, h⟩ := whenIdle_next h
    rw [issueCommand_eq] at h
    exact ⟨hb, (Host.Outcome.next.inj h).symm⟩
  | readStatus => exact (Host.Outcome.next.inj h).symm
  | readOut =>
    obtain ⟨hb, h⟩ := whenIdle_next h
    cases hd : s.done with
    | true =>
      rw [if_pos hd] at h
      exact ⟨hb, hd, (Host.Outcome.next.inj h).symm⟩
    | false => simp [hd] at h
  | reset => exact (Host.Outcome.next.inj h).symm

/-- A transaction that is accepted and fits has a step. -/
theorem transact_idle {t : Txn} {s : State} (hb : s.busy = false) (hf : t.fits = true)
    (hd : t = .readOut → s.done = true) : ∃ u, transact t s = .next u := by
  cases t <;> simp_all [transact, whenIdle, whenFits, issueCommand_eq]

@[simp] theorem accept_data (s : State) (w : Byte) : (s.accept w).data = s.data := rfl
@[simp] theorem accept_keyBlock (s : State) (w : Byte) : (s.accept w).keyBlock = s.keyBlock := rfl
@[simp] theorem accept_ivBlock (s : State) (w : Byte) : (s.accept w).ivBlock = s.ivBlock := rfl
@[simp] theorem invalidInput_accept (i : Instr) (s : State) (w : Byte) :
    invalidInput i (s.accept w) = invalidInput i s := by cases i <;> rfl

/-- A command's result is the same on the state Issue has prepared (30_encoding R81). -/
@[simp] theorem commandResult_accept (P : Primitive) (i : Instr) (s : State) (w : Byte) :
    commandResult P i (s.accept w) = commandResult P i s := by
  cases i <;> simp only [commandResult, invalidInput_accept, accept_data, accept_keyBlock, accept_ivBlock,
    State.accept_bsz]

/-- A step with an Issue at the head of the inbox of an engine that is not busy. -/
theorem step_issue {s : State} {w : Byte} {rest : List Txn} (h : s.inbox = .issue w :: rest)
    (hb : s.busy = false) : step s = .next (issueResult w { s with inbox := rest }) := by
  rw [step_cons h]
  simp [transact, whenIdle, hb, issueCommand_eq]

/-- Issue ends as some command end does. -/
theorem issueResult_cases (w : Byte) (s : State) :
    ∃ i r, issueResult w s = leaveSequencer i ((s.accept w).endWith r) ∧
      ∀ v, r = .ok v → commandResult Config.primitive i s = .ok v := by
  unfold issueResult
  split
  · next i _ => exact ⟨i, _, rfl, by simp⟩
  · exact ⟨.pad, .error .illegalCmd, rfl, by simp⟩

/-- What an Issue leaves unchanged, and the word it latches. -/
theorem issueResult_frame (w : Byte) (s : State) :
    OperandsKept s (issueResult w s) ∧ (issueResult w s).cmd = w ∧ HostSideKept s (issueResult w s) := by
  obtain ⟨i, r, h, -⟩ := issueResult_cases w s
  have f := leaveSequencer_endWith_frame i (s.accept w) r
  rw [h]
  exact ⟨⟨f.operands.key, f.operands.keyLen, f.operands.iv, f.operands.ivLen, f.operands.bsz, f.operands.din,
    f.operands.dinLen⟩, f.cmd, ⟨f.hostSide.inbox, f.hostSide.replies⟩⟩

/-- The host-visible part of what an Issue leaves. -/
theorem issueResult_visible (w : Byte) (s : State) :
    SameVisible (issueResult w s)
      (s.endWith (match decode w with
        | .command i => commandResult Config.primitive i s
        | .reserved _ => .error .illegalCmd)) := by
  unfold issueResult
  cases decode w
  · simp only [commandResult_accept]
    refine ⟨?_, ?_, ?_⟩ <;> simp only [leaveSequencer_status, leaveSequencer_doutLen, leaveSequencer_out] <;>
      cases commandResult Config.primitive _ s <;> simp [State.endWith]
  · exact ⟨rfl, rfl, rfl⟩

end Sys2Proof.Machine
end

