-- ==== Sys2Proof/Tests/Slice0.lean ====
section
/-!
SUPPORT. Small tests of the model, one step each, their expected results taken from the spec's vectors
(spec/95_test_vectors.md) or written out from its encodings; and a witness for the hypotheses of every
obligation that has some.
-/

namespace Sys2Proof.Tests

open Sys2Proof Sys2Proof.Machine

/-! ## Helpers -/

/-- `K`, "YELLOW SUBMARINE" (95_test_vectors, notation). -/
def keyK : ByteSeq :=
  [0x59, 0x45, 0x4C, 0x4C, 0x4F, 0x57, 0x20, 0x53, 0x55, 0x42, 0x4D, 0x41, 0x52, 0x49, 0x4E, 0x45]

/-- The bytes `0, 1, ..., n-1`; `upTo 16` is `IV0`. -/
def upTo (n : Nat) : ByteSeq := (List.range n).map (BitVec.ofNat 8)

/-- Definition T1: the stand-in primitive of the vectors, no part of the hardware. -/
def toy : Primitive where
  E k b := Vector.ofFn fun j : Fin 16 => (b[j + 1] ^^^ k[j + 1]) + 1
  D k x := Vector.ofFn fun j : Fin 16 => (x[j - 1] - 1) ^^^ k[j]

/-- Operands as the loads leave them, on the reset state. -/
def loaded (k iv d : ByteSeq) (bs : Byte) : State := (((State.reset.loadKey k).loadIV iv).loadData d).setBSZ bs

/-- The state with these transactions to come. -/
def facing (ts : List Txn) (s : State) : State := { s with inbox := ts }

/-- A next state with this `STATUS` and this result. -/
def endsIn (o : Host.Outcome State Fault Refusal) (st : Byte) (v : ByteSeq) : Bool :=
  match o with
  | .next t => t.status == st && t.doutLen == v.length && t.out == v
  | .fault _ => false
  | .refused _ => false

/-- A next state of which `p` holds. -/
def goesTo (o : Host.Outcome State Fault Refusal) (p : State → Bool) : Bool :=
  match o with
  | .next t => p t
  | .fault _ => false
  | .refused _ => false

/-- Refused for this reason. -/
def refusedFor (o : Host.Outcome State Fault Refusal) (r : Refusal) : Bool :=
  match o with
  | .next _ => false
  | .fault _ => false
  | .refused q => q == r

/-- An operand of 256 bytes, one more than `KEY` and `IV` hold. -/
def tooLong : ByteSeq := List.replicate 256 0

theorem length_tooLong : tooLong.length = 256 := List.length_replicate

/-! ## Well-formedness -/

/-- Every command is well formed: `P` is the only operand and both its values are legal (30_encoding R73). -/
theorem test_every_command_well_formed : [Instr.pad, .unpad, .ecbEncrypt false, .ecbEncrypt true, .ecbDecrypt false,
    .ecbDecrypt true, .cbcEncrypt false, .cbcEncrypt true, .cbcDecrypt].all Instr.wellFormed = true := by decide

/-- A transaction can be ill-formed: a key of 256 bytes does not fit (20_memory R56). -/
theorem test_key_of_256_bytes_does_not_fit : (Txn.loadKey tooLong).fits = false := by
  simp [Txn.fits, withinCapacity, length_tooLong]

/-- An IV of 256 bytes does not fit (20_memory R57). -/
theorem test_iv_of_256_bytes_does_not_fit : (Txn.loadIV tooLong).fits = false := by
  simp [Txn.fits, withinCapacity, length_tooLong]

/-- A buffer of 16 bytes takes 16 and refuses 17; an unbounded one takes both (20_memory R58). `MAXLEN` itself is
open, so no LoadData is known to be refused. -/
theorem test_capacity_boundary : withinCapacity (some 16) 16 = true ∧ withinCapacity (some 16) 17 = false ∧
    withinCapacity none 17 = true := by decide

/-! ## Decode: words written out from the fields `RSV P C M D` of 30_encoding R71 -/

theorem test_decode_pad : decode 0b0000_0_0_0_0 = .command .pad := by decide
theorem test_decode_unpad : decode 0b0000_0_0_0_1 = .command .unpad := by decide
theorem test_decode_ecb_encrypt : decode 0b0000_0_1_0_0 = .command (.ecbEncrypt false) ∧
    decode 0b0000_1_1_0_0 = .command (.ecbEncrypt true) := by decide
theorem test_decode_ecb_decrypt : decode 0b0000_0_1_0_1 = .command (.ecbDecrypt false) ∧
    decode 0b0000_1_1_0_1 = .command (.ecbDecrypt true) := by decide
theorem test_decode_cbc_encrypt : decode 0b0000_0_1_1_0 = .command (.cbcEncrypt false) ∧
    decode 0b0000_1_1_1_0 = .command (.cbcEncrypt true) := by decide
theorem test_decode_cbc_decrypt : decode 0b0000_0_1_1_1 = .command .cbcDecrypt := by decide

/-- V-D7, V-D8: reserved words; 0x14 is not ECB_ENCRYPT. -/
theorem test_decode_reserved : decode 0x02 = .reserved .modeWithoutCipher ∧ decode 0x08 = .reserved .padFlagOnPadding ∧
    decode 0x0F = .reserved .padFlagOnCbcDecrypt ∧ decode 0x14 = .reserved .reservedBits ∧
    decode 0xFF = .reserved .reservedBits := by decide

/-- The bits above the eight a command word has are no word (30_encoding R70). -/
theorem test_decode_table_word : decodeTableWord 8 0x0E = some (.cbcEncrypt true) ∧ decodeTableWord 8 0x0F = none ∧
    decodeTableWord 16 0x0E = none ∧ decodeTableWord 8 0x104 = none := by decide

/-- A placed command word is what the next step runs: V-X2, PAD straight after reset. -/
theorem test_with_fetch_word : endsIn (step (State.reset.withFetchWord 8 0x00)) 0x02 (List.replicate 16 0x10) = true := by
  decide

/-! ## The commands: the vectors of 95_test_vectors section 4 -/

/-- V-P2. -/
theorem test_pad_to_twenty : endsIn (execPad (loaded [] [] keyK 20)) 0x02 (keyK ++ [0x04, 0x04, 0x04, 0x04]) = true := by
  decide
/-- V-P7: block size 1 appends the byte 0x01. -/
theorem test_pad_block_size_one : endsIn (execPad (loaded [] [] [] 1)) 0x02 [0x01] = true := by decide

/-- V-U13: only the last `n` bytes are examined. -/
theorem test_unpad_examines_last_bytes_only :
    endsIn (execUnpad (loaded [] [] [0x02, 0x02, 0x03, 0x03, 0x03] 16)) 0x02 [0x02, 0x02] = true := by decide
/-- V-U5 (V-X7): `n` = 17 exceeds the block size although all 17 bytes equal 17. -/
theorem test_unpad_bad_length_first : endsIn (execUnpad (loaded [] [] (List.replicate 17 0x11) 16)) 0x0A [] = true := by
  decide

/-- V-E8: "ABCDE". -/
theorem test_ecb_encrypt_pads : endsIn (commandWith toy (.ecbEncrypt true) (loaded keyK [] [0x41, 0x42, 0x43, 0x44, 0x45] 0))
    0x02 [0x08, 0x10, 0x09, 0x0B, 0x5D, 0x2C, 0x59, 0x5F, 0x4A, 0x47, 0x4B, 0x5A, 0x43, 0x46, 0x4F, 0x19] = true := by decide
/-- V-E5: two blocks in order. -/
theorem test_ecb_encrypt_two_blocks : endsIn (commandWith toy (.ecbEncrypt false) (loaded keyK [] (upTo 32) 16)) 0x02
    [0x45, 0x4F, 0x50, 0x4C, 0x53, 0x27, 0x55, 0x5E, 0x4C, 0x48, 0x4B, 0x5F, 0x45, 0x41, 0x4B, 0x5A,
     0x55, 0x5F, 0x60, 0x5C, 0x43, 0x37, 0x45, 0x4E, 0x5C, 0x58, 0x5B, 0x4F, 0x55, 0x51, 0x5B, 0x4A] = true := by decide

/-- V-E19: the plaintext ends 04 04 00 04. -/
theorem test_ecb_decrypt_bad_padding : endsIn (commandWith toy (.ecbDecrypt true) (loaded keyK []
    [0x07, 0x0A, 0x6D, 0x07, 0x15, 0x66, 0x74, 0x18, 0x04, 0x10, 0x19, 0x57, 0x4E, 0x4F, 0x42, 0x11] 16)) 0x0E [] = true := by
  decide
/-- V-E21: the plaintext ends 04 04 04 01. -/
theorem test_ecb_decrypt_unpads : endsIn (commandWith toy (.ecbDecrypt true) (loaded keyK []
    [0x07, 0x0A, 0x6D, 0x07, 0x15, 0x66, 0x74, 0x18, 0x04, 0x10, 0x19, 0x57, 0x4E, 0x4B, 0x45, 0x11] 16)) 0x02
    [0x49, 0x43, 0x45, 0x20, 0x49, 0x43, 0x45, 0x20, 0x42, 0x41, 0x42, 0x59, 0x04, 0x04, 0x04] = true := by decide

/-- The result of V-C1. -/
def cipherC1 : ByteSeq :=
  [0x46, 0x4D, 0x4D, 0x50, 0x58, 0x21, 0x54, 0x56, 0x43, 0x4E, 0x42, 0x53, 0x4A, 0x4F, 0x46, 0x5A,
   0x1A, 0x14, 0x10, 0x04, 0x64, 0x63, 0x13, 0x0F, 0x16, 0x16, 0x0A, 0x05, 0x1C, 0x17, 0x01, 0x10]

/-- V-C1. -/
theorem test_cbc_encrypt_chains :
    endsIn (commandWith toy (.cbcEncrypt false) (loaded keyK (upTo 16) (upTo 32) 16)) 0x02 cipherC1 = true := by decide
/-- V-C3: empty data, padded. -/
theorem test_cbc_encrypt_pads_nothing : endsIn (commandWith toy (.cbcEncrypt true) (loaded keyK (upTo 16) [] 16)) 0x02
    [0x55, 0x5F, 0x60, 0x5C, 0x43, 0x37, 0x45, 0x4E, 0x5C, 0x58, 0x5B, 0x4F, 0x55, 0x51, 0x5B, 0x4A] = true := by decide

/-- V-C10. -/
theorem test_cbc_decrypt_unchains :
    endsIn (commandWith toy .cbcDecrypt (loaded keyK (upTo 16) cipherC1 16)) 0x02 (upTo 32) = true := by decide
/-- V-C13: a wrong IV damages block 0 only. -/
theorem test_cbc_decrypt_wrong_iv : endsIn (commandWith toy .cbcDecrypt (loaded keyK (List.replicate 16 0) cipherC1 16)) 0x02
    (List.replicate 16 0 ++ (upTo 32).drop 16) = true := by decide

/-- The per-block view computes V-C1 too (30_encoding R82). -/
theorem test_block_steps_chain :
    endsIn (.next (seqCommand toy (.cbcEncrypt false) (loaded keyK (upTo 16) (upTo 32) 16))) 0x02 cipherC1 = true := by
  decide

/-! ## Errors: 95_test_vectors section 4.5 -/

/-- V-X1, V-X3, V-X4, V-X8, straight after reset. -/
theorem test_errors_after_reset :
    endsIn (step (facing [.issue 0x0C] State.reset)) 0x06 [] = true ∧
    endsIn (step (facing [.issue 0x01] State.reset)) 0x0A [] = true ∧
    endsIn (step (facing [.issue 0x07] State.reset)) 0x06 [] = true ∧
    endsIn (step (facing [.issue 0x08] State.reset)) 0x12 [] = true := by decide

/-- V-X5, V-X6: with a key of 15 bytes, 0x0F is illegal and 0x0D has an invalid input. -/
theorem test_error_priority :
    endsIn (step (facing [.issue 0x0F] (loaded (upTo 15) [] [] 16))) 0x12 [] = true ∧
    endsIn (step (facing [.issue 0x0D] (loaded (upTo 15) [] [] 16))) 0x06 [] = true := by decide

/-- V-X10: ReadStatus after reset answers 0x00. -/
theorem test_status_after_reset :
    goesTo (step (facing [.readStatus] State.reset)) (fun t => t.replies == [.status 0x00]) = true := by decide

/-- Byte 0 of a block is bits 127 to 120 (20_memory R69). -/
theorem test_block_as_word :
    blockToWord (Vector.ofFn fun j => BitVec.ofNat 8 j.val) = 0x000102030405060708090A0B0C0D0E0F#128 := by decide

/-! ## Script text (30_encoding R78) -/

/-- A quoted operand keeps its blanks and a comment is dropped: `LOADKEY "A ;B" ; x`. -/
theorem test_read_quoted_line : readLine ['L', 'O', 'A', 'D', 'K', 'E', 'Y', ' ', ' ', '\"', 'A', ' ', ';', 'B', '\"', ' ', ';', ' ', 'x'] =
    some [.perform (.loadKey [0x41, 0x20, 0x3B, 0x42])] := by decide

/-- `LOADIV 00fF`, `SETBSZ 20`, `ISSUE 0F`, `ECB_DECRYPT pad=1`, `LOADDATA empty`, a comment, and two bad lines. -/
theorem test_read_lines :
    readLine ['L', 'O', 'A', 'D', 'I', 'V', ' ', '0', '0', 'f', 'F'] = some [.perform (.loadIV [0x00, 0xFF])] ∧
    readLine ['S', 'E', 'T', 'B', 'S', 'Z', ' ', '2', '0'] = some [.perform (.setBSZ 20)] ∧
    readLine ['I', 'S', 'S', 'U', 'E', ' ', '0', 'F'] = some [.perform (.issue 0x0F)] ∧
    readLine ['E', 'C', 'B', '_', 'D', 'E', 'C', 'R', 'Y', 'P', 'T', ' ', 'p', 'a', 'd', '=', '1'] = some [.command (.ecbDecrypt true)] ∧
    readLine ['L', 'O', 'A', 'D', 'D', 'A', 'T', 'A', ' ', 'e', 'm', 'p', 't', 'y'] = some [.perform (.loadData [])] ∧
    readLine [';', ' ', 'P', '1'] = some [] ∧
    readLine ['S', 'E', 'T', 'B', 'S', 'Z', ' ', '2', '5', '6'] = none ∧ readLine ['P', 'A', 'D', ' ', 'p', 'a', 'd', '=', '1'] = none := by decide

/-- The encoding of program P2: `0E 07 01`. -/
theorem test_script_words : scriptWords [.perform .reset, .perform (.loadKey keyK), .perform (.loadIV (upTo 16)),
    .command (.cbcEncrypt true), .moveOut, .cbcDecryptUnpad, .perform .readStatus] = [0x0E, 0x07, 0x01] := by decide

/-! ## Witnesses: a state and operands that meet the hypotheses of an obligation, clause by clause -/

/-- `MAXLEN` is at least 16, whatever it is (00_scope R8). -/
theorem sixteen_bytes_fit {n : Nat} (h : n ≤ 16) : withinCapacity Config.MAXLEN n = true := by
  unfold Config.MAXLEN
  cases Config.maxlenAboveBlock with
  | none => rfl
  | some m => simp [withinCapacity]; omega

/-- A load of one byte is accepted by every engine that is not busy. -/
theorem transact_loadData_one (b : Byte) (s : State) (h : s.busy = false) :
    transact (.loadData [b]) s = .next (s.loadData [b]) := by
  have hf : (Txn.loadData [b]).fits = true := sixteen_bytes_fit (by simp)
  rw [transact, whenIdle, whenFits, hf, h]
  rfl

/-- An engine with a key, an IV and one block of data, as a host leaves it. -/
def ready : State := loaded keyK (upTo 16) (upTo 16) 16

/-- `ready` after a PAD: `DONE`, `ERR` = 0 and a result of 32 bytes. -/
def padded : State := { ready.returnResult (padBytes (upTo 16) 16) with cmd := 0x00 }

theorem witness_ResetTransactionEmptiesEngine :
    goesTo (step (facing [.reset, .readStatus] padded)) (fun t => t.keyLen == 0 && t.doutLen == 0) = true := by decide

theorem witness_UnloadedOperandsGiveDefinedErrors :
    (State.reset.keyLen = 0 ∧ isCipher .cbcDecrypt = true ∧ endsIn (exec .cbcDecrypt State.reset) 0x06 [] = true) ∧
    ((loaded keyK [] [] 16).ivLen = 0 ∧ usesChain (.cbcEncrypt true) = true ∧
      endsIn (exec (.cbcEncrypt true) (loaded keyK [] [] 16)) 0x06 [] = true) ∧
    ((loaded [] [] [] 3).dinLen = 0 ∧ (loaded [] [] [] 3).bsz ≠ 0 ∧
      endsIn (exec .pad (loaded [] [] [] 3)) 0x02 [3, 3, 3] = true ∧
      endsIn (exec .unpad (loaded [] [] [] 3)) 0x0A [] = true) := by decide

theorem witness_StatusValuesAreTheTable :
    ({ State.reset with status := 0x12 } : State).status = statusWord false true 4 := by decide

/-- A state of the invariant other than reset: a key is loaded and an Issue is to come. -/
theorem witness_EveryStepKeepsInvariant :
    (facing [.issue 0x0C] (State.reset.loadKey keyK)).Inv ∧
    ∃ t, step (facing [.issue 0x0C] (State.reset.loadKey keyK)) = .next t := by
  refine ⟨⟨Memory.holds_fill keyK, rfl, rfl, rfl, sixteen_bytes_fit (by decide), ?_, .inl rfl, fun _ => rfl⟩,
    _, step_issue rfl rfl⟩
  show withinCapacity (Config.MAXLEN.map (· + 255)) 0 = true
  cases Config.MAXLEN <;> simp [withinCapacity]

theorem witness_RegistersChangeOnlyByTheirTransactions :
    goesTo (step (facing [.loadKey [7]] State.reset)) (fun t => t.key != State.reset.key && t.keyLen != 0) = true ∧
    goesTo (step (facing [.loadIV [7]] State.reset)) (fun t => t.iv != State.reset.iv && t.ivLen != 0) = true ∧
    (∃ t, step (facing [.loadData [7]] State.reset) = .next t ∧ t.din ≠ State.reset.din) ∧
    goesTo (step (facing [.setBSZ 0] State.reset)) (fun t => t.bsz != State.reset.bsz) = true ∧
    goesTo (step (facing [.issue 0x00] State.reset)) (fun t => t.status != State.reset.status) = true := by
  refine ⟨by decide, by decide, ⟨(facing [] State.reset).loadData [7], ?_, by decide⟩, by decide, by decide⟩
  exact (step_cons rfl).trans (transact_loadData_one _ _ (by decide))

/-- Definition T1: the stand-in satisfies P-inverse. -/
theorem witness_PrimitiveInverse : toy.Inverse := by
  intro k b
  ext j hj : 1
  simp [toy, Fin.getElem_fin]

theorem witness_MemWriteStoresNamedBytes :
    Memory.wf (ready.space .din) = true ∧ (ready.memWrite .din 15 [9, 9]).memRead .din 14 3 = [14, 9, 9] := by decide

/-- Both ends of the range, and the first length beyond it. -/
theorem witness_LoadKeyStoresKey :
    (facing [.loadKey []] padded).busy = false ∧ (tooLong.drop 1).length ≤ 255 ∧ 255 < tooLong.length ∧
    goesTo (step (facing [.loadKey []] padded)) (fun t => t.keyLen == 0) = true ∧
    step (facing [.loadKey tooLong] padded) = .refused .operandTooLong := by
  refine ⟨by decide, by rw [List.length_drop, length_tooLong], by rw [length_tooLong]; decide, by decide, ?_⟩
  rw [step_cons (t := .loadKey tooLong) (rest := []) rfl, transact, whenFits, test_key_of_256_bytes_does_not_fit]
  rfl

theorem witness_LoadIVStoresIV :
    (facing [.loadIV []] padded).busy = false ∧ (tooLong.drop 1).length ≤ 255 ∧ 255 < tooLong.length ∧
    goesTo (step (facing [.loadIV []] padded)) (fun t => t.ivLen == 0) = true ∧
    step (facing [.loadIV tooLong] padded) = .refused .operandTooLong := by
  refine ⟨by decide, by rw [List.length_drop, length_tooLong], by rw [length_tooLong]; decide, by decide, ?_⟩
  rw [step_cons (t := .loadIV tooLong) (rest := []) rfl, transact, whenFits, test_iv_of_256_bytes_does_not_fit]
  rfl

/-- A wrong length is found when a command is issued: keys of 15 and 17 bytes, IVs of 0 and 17 bytes. -/
theorem witness_LoadKeyStoresKey_wrong_length :
    (upTo 15).length ≠ 16 ∧ isCipher (.ecbEncrypt true) = true ∧
    goesTo (step (facing [.loadKey (upTo 15)] padded)) (fun t => endsIn (exec (.ecbEncrypt true) t) 0x06 []) = true ∧
    goesTo (step (facing [.loadKey (upTo 17)] padded)) (fun t => endsIn (exec .cbcDecrypt t) 0x06 []) = true := by decide

theorem witness_LoadIVStoresIV_wrong_length :
    usesChain .cbcDecrypt = true ∧ (upTo 17).length ≠ 16 ∧
    goesTo (step (facing [.loadIV []] padded)) (fun t => endsIn (exec .cbcDecrypt t) 0x06 []) = true ∧
    goesTo (step (facing [.loadIV (upTo 17)] padded)) (fun t => endsIn (exec (.cbcEncrypt true) t) 0x06 []) = true := by
  decide

/-- Accepted whatever `MAXLEN` is. That a longer load is refused depends on the open `MAXLEN`: with `MAXLEN` = 16 the
first length beyond it is 17 (`test_capacity_boundary`). -/
theorem witness_LoadDataStoresData :
    (facing [.loadData (upTo 16)] padded).busy = false ∧ (upTo 16).length ≤ 16 ∧
    withinCapacity Config.MAXLEN (upTo 16).length = true := ⟨by decide, by decide, sixteen_bytes_fit (by decide)⟩

theorem witness_SetBSZWritesBlockSize :
    (facing [.setBSZ 0] padded).busy = false ∧ goesTo (step (facing [.setBSZ 0] padded)) (fun t => t.bsz == 0) = true ∧
    goesTo (step (facing [.setBSZ 255] padded)) (fun t => t.bsz == 255) = true := by decide

/-- A state in the middle of an Issue (30_encoding R81): busy. -/
def busyState : State := ready.accept 0x0C

/-- The busy clause of LoadKeyStoresKey, for the empty sequence and for one that is too long. -/
theorem witness_LoadKeyStoresKey_busy : busyState.busy = true ∧
    refusedFor (step (facing [.loadKey []] busyState)) .engineBusy = true ∧
    refusedFor (step (facing [.loadKey tooLong] busyState)) .engineBusy = true := by decide

theorem witness_LoadIVStoresIV_busy : busyState.busy = true ∧
    refusedFor (step (facing [.loadIV []] busyState)) .engineBusy = true ∧
    refusedFor (step (facing [.loadIV tooLong] busyState)) .engineBusy = true := by decide

theorem witness_LoadDataStoresData_busy : busyState.busy = true ∧
    refusedFor (step (facing [.loadData []] busyState)) .engineBusy = true ∧
    refusedFor (step (facing [.loadData (upTo 17)] busyState)) .engineBusy = true := by decide

theorem witness_SetBSZWritesBlockSize_busy : busyState.busy = true ∧
    refusedFor (step (facing [.setBSZ 0] busyState)) .engineBusy = true := by decide

theorem witness_ReadStatusAnswersStatus :
    busyState.busy = true ∧ busyState.status = 0x01 ∧ LegalStatus padded.status ∧
    goesTo (step (facing [.readStatus] busyState)) (fun t => t.replies == [.status 0x01]) = true := by
  refine ⟨by decide, by decide, .inr (.inl rfl), by decide⟩

/-- One state for each outcome the host can obtain, and one before any. -/
theorem witness_ReadOutAnswersResult :
    (padded.busy = false ∧ padded.done = true ∧ padded.err = 0 ∧
      padded.result = some (.ok (upTo 16 ++ List.replicate 16 0x10))) ∧
    ((ready.raise .invalidInput).done = true ∧ (ready.raise .invalidInput).err = 1) ∧
    (ready.raise .badLength).err = 2 ∧ (ready.raise .badPadding).err = 3 ∧ (ready.raise .illegalCmd).err = 4 ∧
    (ready.raise .illegalCmd).result = some (.error .illegalCmd) ∧
    (ready.busy = false ∧ ready.done = false ∧ refusedFor (step (facing [.readOut] ready)) .noResult = true) := by
  refine ⟨⟨by decide, by decide, by decide, rfl⟩, by decide, by decide, by decide, by decide, rfl, by decide⟩

/-- The invariant holds of a state whose last command failed. -/
theorem witness_ReadOutAnswersResult_error :
    (State.reset.raise .illegalCmd).Inv ∧ (State.reset.raise .illegalCmd).err ≠ 0 := by
  refine ⟨⟨rfl, rfl, rfl, rfl, sixteen_bytes_fit (by decide), ?_, .inr (.inr (.inr (.inr (.inr rfl)))), fun _ => rfl⟩, by decide⟩
  show withinCapacity (Config.MAXLEN.map (· + 255)) 0 = true
  cases Config.MAXLEN <;> simp [withinCapacity]

theorem witness_BusyEngineRefusesOtherTransactions :
    busyState.busy = true ∧ goesTo (step (facing [.reset] busyState)) (fun t => t.status == 0x00) = true ∧
    refusedFor (step (facing [.issue 0x00] busyState)) .engineBusy = true ∧
    refusedFor (step (facing [.readOut] busyState)) .engineBusy = true := by decide

theorem witness_LoadsAreIdempotent :
    goesTo (step (facing [.loadKey [7], .loadKey [7]] ready)) (fun t => goesTo (step t) (fun u => u.keyLen == 1)) = true ∧
    goesTo (step (facing [.loadIV [7], .loadIV [7]] ready)) (fun t => goesTo (step t) (fun u => u.ivLen == 1)) = true ∧
    goesTo (step (facing [.setBSZ 7, .setBSZ 7] ready)) (fun t => goesTo (step t) (fun u => u.bsz == 7)) = true ∧
    ∃ t u, step (facing [.loadData [7], .loadData [7]] ready) = .next t ∧ step t = .next u := by
  exact ⟨by decide, by decide, by decide, (facing [.loadData [7]] ready).loadData [7],
    ((facing [] ready).loadData [7]).loadData [7],
    (step_cons rfl).trans (transact_loadData_one _ _ (by decide)),
    (step_cons rfl).trans (transact_loadData_one _ _ (by decide))⟩

theorem witness_SameIssueTwiceSameOutcome :
    ready.busy = false ∧
    goesTo (step (facing [.issue 0x00, .issue 0x00] ready)) (fun t => endsIn (step t) 0x02 (padBytes (upTo 16) 16)) = true := by
  decide

/-- Two states with other keys that the host cannot tell apart. -/
theorem witness_RepliesRevealOnlyVisibleState :
    goesTo (step (facing [.setBSZ 1] ready)) (fun t => t.replies == ready.replies) = true ∧
    SameVisible padded (padded.loadKey []) ∧ padded.keyLen ≠ (padded.loadKey []).keyLen ∧
    goesTo (step (facing [.readOut] padded)) (fun t => t.replies.length == 1) = true ∧
    goesTo (step (facing [.readOut] (padded.loadKey []))) (fun t => t.replies.length == 1) = true := by
  refine ⟨by decide, ⟨rfl, rfl, rfl⟩, by decide, by decide, by decide⟩

theorem witness_EncodeIsInverseOfDecode : decode 0x0E = .command (.cbcEncrypt true) := by decide

theorem witness_StepRunsDecodedCommand :
    padded.busy = false ∧ decode 0x05 = .command (.ecbDecrypt false) ∧
    goesTo (step (facing [.issue 0x05] padded)) (fun t => t.status == 0x02 && t.cmd == 0x05) = true := by decide

/-- One word for each reason. -/
theorem witness_ReservedWordRaisesIllegalCmd :
    [0x02, 0x09, 0x0F, 0x80].all (fun w => endsIn (step (facing [.issue w] padded)) 0x12 []) = true := by decide

theorem witness_EveryIssueCompletes :
    padded.busy = false ∧ [0x00, 0x01, 0x04, 0x05, 0x06, 0x07, 0xFF].all
      (fun w => goesTo (step (facing [.issue w] padded)) (fun t => t.done)) = true := by decide

/-- A command that succeeds and leaves a byte of `DOUT` above its result. -/
theorem witness_CommandsLeaveTheRestUnchanged :
    goesTo (exec .pad ({ padded with bsz := 1 })) (fun t => t.status == 0x02 && t.doutLen == 17) = true ∧
    goesTo (exec (.ecbEncrypt false) padded) (fun t => t.status == 0x02) = true := by decide

/-- The ends of the range of block sizes. -/
theorem witness_PadAppendsItsCount :
    padBytes [5] 1 = [5, 1] ∧ (padBytes [5] 255).length = 255 := ⟨rfl, length_padBytes [5] 255⟩

/-- V-U4, V-U6, V-U9, V-U3, V-U14: each case of 40_padding R91 after (a), and `n` at the ends of its range. -/
theorem witness_UnpadDecidesByItsCases :
    unpadBytes [4, 4, 4, 0] 16 = .error .badLength ∧ unpadBytes [1, 9] 8 = .error .badLength ∧
    unpadBytes [3] 16 = .error .badLength ∧ unpadBytes [1, 2, 3, 4] 16 = .error .badPadding ∧
    unpadBytes [7, 1] 1 = .ok [7] ∧ unpadBytes [2, 2] 2 = .ok [] := by
  refine ⟨rfl, rfl, rfl, rfl, rfl, rfl⟩

theorem witness_PadLengthArithmetic :
    padCount 16 16 = 16 ∧ padCount 15 16 = 1 ∧ padCount 0 255 = 255 ∧ unpadBytes [9, 2, 2] 16 = .ok [9] :=
  ⟨rfl, rfl, rfl, rfl⟩

theorem witness_UnpadUndoesPad : unpadBytes (padBytes [1, 2, 3] 1) 1 = .ok [1, 2, 3] ∧
    unpadBytes (padBytes [] 20) 20 = .ok [] := ⟨rfl, rfl⟩

theorem witness_UnpadAcceptsExactlyPaddedTails : unpadBytes ([1, 2] ++ List.replicate 2 2) 2 = .ok [1, 2] ∧
    unpadBytes [0] 255 = .error .badLength := ⟨rfl, rfl⟩

theorem witness_PadCommandPads :
    endsIn (exec .pad (loaded [] [] [5] 0)) 0x06 [] = true ∧ endsIn (exec .pad (loaded [] [] [5] 1)) 0x02 [5, 1] = true ∧
    (loaded [] [] [5] 255).bsz ≠ 0 := by decide

/-- Each clause at the ends of its range: `BSZ` = 0; no data, last byte 0, above `BSZ`, above the length; then a
bad tail, and a whole buffer of padding. -/
theorem witness_UnpadCommandStripsPadding :
    endsIn (exec .unpad (loaded [] [] [1] 0)) 0x06 [] = true ∧ endsIn (exec .unpad (loaded [] [] [] 1)) 0x0A [] = true ∧
    endsIn (exec .unpad (loaded [] [] [0] 1)) 0x0A [] = true ∧ endsIn (exec .unpad (loaded [] [] [2, 2] 1)) 0x0A [] = true ∧
    endsIn (exec .unpad (loaded [] [] [2] 2)) 0x0A [] = true ∧ endsIn (exec .unpad (loaded [] [] [1, 2] 2)) 0x0E [] = true ∧
    endsIn (exec .unpad (loaded [] [] [2, 2] 2)) 0x02 [] = true := by decide

/-- Keys of 15 and 17 bytes, data of 15 and 17 bytes, and the operands that are right: one block, and none. -/
theorem witness_EcbEncryptEncryptsEachBlock :
    endsIn (exec (.ecbEncrypt true) (loaded (upTo 15) [] [] 16)) 0x06 [] = true ∧
    endsIn (exec (.ecbEncrypt true) (loaded (upTo 17) [] [] 16)) 0x06 [] = true ∧
    endsIn (exec (.ecbEncrypt false) (loaded keyK [] (upTo 15) 16)) 0x06 [] = true ∧
    endsIn (exec (.ecbEncrypt false) (loaded keyK [] [] 0)) 0x02 [] = true ∧
    goesTo (exec (.ecbEncrypt false) ready) (fun t => t.status == 0x02) = true ∧
    goesTo (exec (.ecbEncrypt true) (loaded keyK [] (upTo 15) 0)) (fun t => t.status == 0x02) = true := by
  decide

/-- As above; the padding errors of `P = 1` through the toy primitive, the engine's being open. -/
theorem witness_EcbDecryptDecryptsEachBlock :
    endsIn (exec (.ecbDecrypt true) (loaded (upTo 15) [] [] 16)) 0x06 [] = true ∧
    endsIn (exec (.ecbDecrypt true) (loaded keyK [] (upTo 17) 16)) 0x06 [] = true ∧
    endsIn (exec (.ecbDecrypt true) (loaded keyK [] [] 16)) 0x0A [] = true ∧
    endsIn (exec (.ecbDecrypt false) (loaded keyK [] [] 16)) 0x02 [] = true ∧
    goesTo (exec (.ecbDecrypt false) ready) (fun t => t.status == 0x02) = true := by decide

theorem witness_CbcEncryptChainsBlocks :
    endsIn (exec (.cbcEncrypt true) (loaded (upTo 15) (upTo 16) [] 16)) 0x06 [] = true ∧
    endsIn (exec (.cbcEncrypt false) (loaded keyK (upTo 15) [] 16)) 0x06 [] = true ∧
    endsIn (exec (.cbcEncrypt false) (loaded keyK (upTo 16) (upTo 17) 16)) 0x06 [] = true ∧
    endsIn (exec (.cbcEncrypt false) (loaded keyK (upTo 16) [] 0)) 0x02 [] = true ∧
    goesTo (exec (.cbcEncrypt false) (loaded keyK (upTo 16) (upTo 32) 0)) (fun t => t.status == 0x02) = true ∧
    goesTo (exec (.cbcEncrypt true) (loaded keyK (upTo 16) (upTo 17) 0)) (fun t => t.status == 0x02) = true := by
  decide

theorem witness_CbcDecryptUnchainsBlocks :
    endsIn (exec .cbcDecrypt (loaded (upTo 15) (upTo 16) [] 16)) 0x06 [] = true ∧
    endsIn (exec .cbcDecrypt (loaded keyK (upTo 17) [] 16)) 0x06 [] = true ∧
    endsIn (exec .cbcDecrypt (loaded keyK (upTo 16) (upTo 15) 16)) 0x06 [] = true ∧
    endsIn (exec .cbcDecrypt (loaded keyK (upTo 16) [] 0)) 0x02 [] = true ∧
    goesTo (exec .cbcDecrypt (loaded keyK (upTo 16) (upTo 32) 0)) (fun t => t.status == 0x02) = true := by
  decide

/-- V-E6: two equal blocks of the source. -/
theorem witness_EcbEqualBlocksGiveEqualBlocks :
    (∃ t, exec (.ecbEncrypt false) (loaded keyK [] (List.replicate 32 0x41) 0) = .next t ∧ t.status = 0x02 ∧ t.doutLen = 32) ∧
    (seqSetup (.ecbEncrypt false) (loaded keyK [] (List.replicate 32 0x41) 0)).srcBlock 0 =
      (seqSetup (.ecbEncrypt false) (loaded keyK [] (List.replicate 32 0x41) 0)).srcBlock 1 := by
  refine ⟨⟨_, exec_eq _ _, ?_, ?_⟩, by decide⟩ <;>
    rw [commandResult_ecbEncrypt _ _ (by decide) (.inr (by decide))]
  · exact (delivered_of_ok _ _ _).status
  · rw [(delivered_of_ok _ _ _).doutLen, ecbEncryptBytes, length_joinBlocks, List.length_map, length_blocks,
      length_encryptSource_data]
    rfl

/-- Two data sequences of different lengths with the same first block. -/
theorem witness_EcbBlocksAreIndependent :
    ready.keyBlock = (loaded keyK [] (upTo 32) 16).keyBlock ∧
    ready.readBlock .din 0 = (loaded keyK [] (upTo 32) 16).readBlock .din 0 ∧
    goesTo (commandWith toy (.ecbEncrypt true) ready) (fun t => t.status == 0x02) = true ∧
    goesTo (commandWith toy (.ecbEncrypt false) (loaded keyK [] (upTo 32) 16)) (fun t => t.status == 0x02) = true ∧
    goesTo (commandWith toy (.ecbDecrypt false) ready) (fun t => t.status == 0x02) = true ∧
    goesTo (commandWith toy (.ecbDecrypt false) (loaded keyK [] (upTo 32) 16)) (fun t => t.status == 0x02) = true := by
  have hk : ready.space .key = (loaded keyK [] (upTo 32) 16).space .key := rfl
  refine ⟨State.readBlock_congr hk 0, ?_, by decide, by decide, by decide, by decide⟩
  apply Vector.toList_inj.mp
  rw [toList_readBlock, toList_readBlock]
  decide

/-- Every command succeeds on some operands (`ECB_DECRYPT` with `P = 1`: `test_ecb_decrypt_unpads`). -/
theorem witness_CipherResultLengths :
    [Instr.pad, .ecbEncrypt false, .ecbEncrypt true, .ecbDecrypt false, .cbcEncrypt false, .cbcEncrypt true, .cbcDecrypt].all
      (fun i => goesTo (exec i ready) (fun t => t.status == 0x02)) = true ∧
    endsIn (exec .unpad (loaded [] [] [9, 1] 1)) 0x02 [9] = true := by decide

/-- For EcbRoundTripIffPrimitiveInverse and CbcRoundTrip. -/
theorem witness_RoundTrips :
    toy.Inverse ∧ ready.keyLen = 16 ∧ ready.ivLen = 16 ∧ ready.dinLen % 16 = 0 := ⟨witness_PrimitiveInverse, by decide, by decide, by decide⟩

theorem witness_CbcPiecesChainedByHost :
    ready.keyLen = 16 ∧ ready.ivLen = 16 ∧ (loaded keyK (upTo 16) (upTo 21) 16).data = upTo 16 ++ (upTo 21).drop 16 ∧
    upTo 16 ≠ [] ∧ (upTo 16).length % 16 = 0 := by decide

/-- The form with `P = 0`: both parts are block-aligned. -/
theorem witness_CbcPiecesChainedByHost_unpadded :
    (loaded keyK (upTo 16) (upTo 32) 16).keyLen = 16 ∧ (loaded keyK (upTo 16) (upTo 32) 16).ivLen = 16 ∧
    (loaded keyK (upTo 16) (upTo 32) 16).data = upTo 16 ++ (upTo 32).drop 16 ∧
    upTo 16 ≠ [] ∧ (upTo 16).length % 16 = 0 ∧ ((upTo 32).drop 16).length % 16 = 0 := by decide

theorem witness_WrongIVDamagesFirstBlockOnly :
    (loaded keyK (upTo 16) cipherC1 16).dinLen % 16 = 0 ∧ (List.replicate 16 (0 : Byte)).length = 16 ∧
    goesTo (commandWith toy .cbcDecrypt (loaded keyK (upTo 16) cipherC1 16)) (fun t => t.status == 0x02) = true ∧
    goesTo (commandWith toy .cbcDecrypt ((loaded keyK (upTo 16) cipherC1 16).loadIV (List.replicate 16 0)))
      (fun t => t.status == 0x02) = true := by decide

theorem witness_InvalidInputExactlyByTheTable :
    [Instr.pad, .unpad].all (fun i => endsIn (exec i (loaded keyK (upTo 16) [] 0)) 0x06 []) = true ∧
    [Instr.ecbEncrypt true, .ecbDecrypt true, .cbcEncrypt true, .cbcDecrypt].all
      (fun i => endsIn (exec i (loaded [] (upTo 16) [] 0)) 0x06 []) = true := by decide

theorem witness_PaddingErrorsOnlyFromUnpadding :
    endsIn (exec .unpad (loaded [] [] [1, 2] 2)) 0x0E [] = true ∧
    endsIn (exec (.ecbDecrypt true) (loaded keyK [] [] 2)) 0x0A [] = true := by decide

theorem witness_FirstErrorInPriorityOrder :
    (facing [.issue 0x01] padded).busy = false ∧ endsIn (step (facing [.issue 0x01] padded)) 0x0E [] = true := by decide

theorem witness_ErrorDeliversNothing :
    padded.busy = false ∧ goesTo (step (facing [.issue 0x01] padded)) (fun t => t.err != 0 && t.out == [] && t.cmd == 0x01) = true := by
  decide

theorem witness_ErrorsAreNotSticky :
    padded.busy = false ∧ (padded.raise .badPadding).busy = false ∧
    (facing [.issue 0x00] (padded.raise .badPadding)) =
      { facing [.issue 0x00] padded with
        status := (padded.raise .badPadding).status, dout := (padded.raise .badPadding).dout,
        doutLen := (padded.raise .badPadding).doutLen } := by
  refine ⟨by decide, by decide, rfl⟩

theorem witness_OutcomeDependsOnOperandsOnly :
    SameOperands (facing [.issue 0x00] ready) (facing [.issue 0x00, .reset] padded) ∧ ready.busy = false ∧ padded.busy = false :=
  ⟨⟨rfl, rfl, rfl, rfl, rfl, rfl, rfl⟩, by decide, by decide⟩

/-- An ECB command and one without a key, on states that differ in the operands they do not use. -/
theorem witness_UnusedOperandsAreIgnored :
    (loaded keyK [] (upTo 16) 0).din = ready.din ∧ (loaded keyK [] (upTo 16) 0).key = ready.key ∧
    (loaded keyK [] (upTo 16) 0).bsz ≠ ready.bsz ∧ (loaded keyK [] (upTo 16) 0).ivLen ≠ ready.ivLen ∧
    usesChain (.ecbEncrypt true) = false ∧
    goesTo (exec (.ecbEncrypt true) ready) (fun t => t.status == 0x02) = true ∧
    goesTo (exec (.ecbEncrypt true) (loaded keyK [] (upTo 16) 0)) (fun t => t.status == 0x02) = true ∧
    goesTo (exec .pad (loaded [] [] (upTo 16) 16)) (fun t => t.status == 0x02) = true := by decide

/-- The block loop before its first and after its last block. -/
theorem witness_BlockLoopIsCounted :
    isCipher (.cbcEncrypt true) = true ∧ (seqSetup (.cbcEncrypt true) ready).nblk = 2 ∧
    (seqRun toy (.cbcEncrypt true) 0 (seqSetup (.cbcEncrypt true) ready)).blk = 0 ∧
    (seqRun toy (.cbcEncrypt true) 2 (seqSetup (.cbcEncrypt true) ready)).blk = 2 := by decide

theorem witness_ChainHoldsPreviousCiphertextBlock :
    usesChain .cbcDecrypt = true ∧ usesChain (.cbcEncrypt false) = true ∧ (seqSetup .cbcDecrypt ready).nblk = 1 ∧
    (seqRun toy .cbcDecrypt 1 (seqSetup .cbcDecrypt ready)).chain = ready.readBlock .din 0 := by decide

/-- An error; and a result that fits whatever `MAXLEN` is. A result that does not depends on the open `MAXLEN`. -/
theorem witness_MoveOutFeedsResultToData :
    (ready.raise .badLength).busy = false ∧ (ready.raise .badLength).err ≠ 0 ∧
    (ready.returnResult [9]).busy = false ∧ (ready.returnResult [9]).err = 0 ∧ (ready.returnResult [9]).done = true ∧
    withinCapacity Config.MAXLEN (ready.returnResult [9]).doutLen = true :=
  ⟨by decide, by decide, by decide, by decide, by decide, sixteen_bytes_fit (by decide)⟩

/-- MOVEOUT of an empty result goes on, whatever `MAXLEN` is. -/
theorem moveOut_of_empty {s : State} (hs : s.status = 0x02) (hl : s.doutLen = 0) :
    ∃ u, moveOut s = .goesOn u ∧ u.busy = false := by
  have hb : s.busy = false := by rw [busy_of_status hs]; decide
  have hd : s.done = true := by rw [done_of_status hs]; decide
  have he : s.err = 0 := by rw [err_of_status hs]; decide
  have ho : s.out = [] := by simp [State.out, hl, State.memRead]
  have hf : (Txn.loadData []).fits = true := sixteen_bytes_fit (by simp)
  let s1 := s.answer (.status s.status)
  let s2 := s1.answer (.out s.doutLen s.out)
  have h1 : scriptTxn .readStatus s = .goesOn s1 := rfl
  have h2 : scriptTxn .readOut s1 = .goesOn s2 := by
    simp only [scriptTxn, transact, whenIdle, show s1.busy = false from hb, show s1.done = true from hd]
    rfl
  have h3 : scriptTxn (.loadData s2.out) s2 = .goesOn (s2.loadData []) := by
    rw [show s2.out = [] from ho]
    simp only [scriptTxn, transact, whenIdle, whenFits, show s2.busy = false from hb, hf]
    rfl
  refine ⟨s2.loadData [], ?_, hb⟩
  unfold moveOut
  rw [h1]
  simp only [ScriptOutcome.andThen]
  rw [if_neg (show ¬ s1.err ≠ 0 from fun h => h he), h2]
  exact h3

/-- The script goes on: empty data decrypts to nothing (UNPAD then raises BadLength, which stops no script). -/
theorem witness_CbcDecryptUnpadIsItsExpansion :
    ∃ t, scriptLine .cbcDecryptUnpad (loaded keyK (upTo 16) [] 3) = .goesOn t := by
  generalize hs : loaded keyK (upTo 16) [] 3 = s
  have hb : s.busy = false := by rw [← hs]; decide
  have hr : commandResult Config.primitive .cbcDecrypt s = .ok [] := by
    rw [← hs, commandResult_cbcDecrypt _ (by decide) (by decide) (by decide)]
    rfl
  have issue : ∀ w u, State.busy u = false → scriptTxn (.issue w) u = .goesOn (issueResult w u) := by
    intro w u hu
    simp only [scriptTxn, transact, whenIdle, hu, issueCommand_eq]
    rfl
  have hv := issueResult_visible (encode .cbcDecrypt) s
  rw [show decode (encode .cbcDecrypt) = .command .cbcDecrypt by decide] at hv
  simp only [hr] at hv
  obtain ⟨u, hu, hub⟩ := moveOut_of_empty (s := issueResult (encode .cbcDecrypt) s)
    (hv.1.trans (by simp [State.endWith])) (hv.2.1.trans rfl)
  refine ⟨issueResult (encode .unpad) (u.setBSZ 16), ?_⟩
  have hset : scriptTxn (.setBSZ 16) u = .goesOn (u.setBSZ 16) := by
    simp only [scriptTxn, transact, whenIdle, hub]
    rfl
  show cbcDecryptUnpad s = _
  unfold cbcDecryptUnpad
  rw [issue _ _ hb]
  simp only [ScriptOutcome.andThen]
  rw [hu]
  simp only [hset]
  exact issue _ _ hub

end Sys2Proof.Tests
end

section
/-!
PROOFS. 00_scope: the primitive (R11) and the capacity of the data buffer (R8).
-/

namespace Sys2Proof

/-! ## The primitive -/

theorem finite_block : Finite Block :=
  have : Finite Byte := Finite.of_injective BitVec.toFin fun _ _ => BitVec.eq_of_toFin_eq
  Finite.of_injective (fun (b : Block) (j : Fin 16) => b[j]) fun _ _ h =>
    Vector.ext fun j hj => congrFun h ⟨j, hj⟩

/-- Encryption under one key is injective because `D` undoes it, hence onto: the blocks are a finite set
(00_scope R11). -/
theorem Primitive.Inverse.encrypt_surjective {P : Primitive} (h : P.Inverse) (k : Block) :
    Function.Surjective (P.E k) :=
  have : Finite Block := finite_block
  have hleft : Function.LeftInverse (P.D k) (P.E k) := h k
  Finite.surjective_of_injective hleft.injective

/-- `D` is the inverse of `E` on the other side too (00_scope R11). -/
theorem Primitive.Inverse.encrypt_decrypt {P : Primitive} (h : P.Inverse) (k c : Block) :
    P.E k (P.D k c) = c := by
  obtain ⟨b, rfl⟩ := h.encrypt_surjective k c
  rw [h k b]

/-! ## The capacity of the data buffer -/

/-- `MAXLEN` is unbounded or at least one block (00_scope R8). -/
theorem Config.sixteen_le_MAXLEN {m : Nat} (h : Config.MAXLEN = some m) : 16 ≤ m := by
  obtain ⟨excess, -, rfl⟩ := Option.map_eq_some_iff.mp h
  exact Nat.le_add_right 16 excess

namespace Machine

theorem withinCapacity_iff {cap : Option Nat} {n : Nat} :
    withinCapacity cap n = true ↔ ∀ m, cap = some m → n ≤ m := by
  cases cap <;> simp [withinCapacity]

/-- A step with a LoadData that fits at the head of the inbox of an engine that is not busy (20_memory R58). -/
theorem step_loadData {s : State} {v : ByteSeq} {rest : List Txn} (h : s.inbox = .loadData v :: rest)
    (hb : s.busy = false) (hf : withinCapacity Config.MAXLEN v.length = true) :
    step s = .next (State.loadData { s with inbox := rest } v) := by
  obtain ⟨u, hu⟩ := transact_idle (t := .loadData v) (s := { s with inbox := rest }) hb hf (by simp)
  obtain ⟨-, -, rfl⟩ := transact_next hu
  rw [step_cons h, hu]

end Machine
end Sys2Proof

open Sys2Proof Sys2Proof.Machine

/-- Settles O10: under each key `E` is onto, and `D` gives back what `E` maps to a block. -/
theorem primitiveInverseBothWays : Obligations.PrimitiveInverseBothWays :=
  fun _ h => h.encrypt_decrypt

/-- Settles O14: sixteen bytes are within `MAXLEN`, and a LoadData that fits leaves its sequence as the data operand. -/
theorem oneBlockOfDataAlwaysFits : Obligations.OneBlockOfDataAlwaysFits := by
  refine ⟨fun _ => Config.sixteen_le_MAXLEN, fun s v rest hin hb hlen => ?_⟩
  have hf : withinCapacity Config.MAXLEN v.length = true :=
    withinCapacity_iff.mpr fun m hm => hlen.trans (Config.sixteen_le_MAXLEN hm)
  exact ⟨_, step_loadData hin hb hf, data_loadData _ v⟩

end

section
/-!
PROOFS. 10_state: the reset state, the `STATUS` values, what a transaction may change, and the invariant between
transactions.
-/

namespace Sys2Proof.Machine

/-! ## The `STATUS` register -/

/-- The fields of a `STATUS` built from fields, over all 32 of them (10_state R29). -/
theorem statusWord_fields (b d : Bool) (e : BitVec 3) :
    (statusWord b d e).getLsbD 0 = b ∧ (statusWord b d e).getLsbD 1 = d ∧
      (statusWord b d e).extractLsb 4 2 = e ∧ (statusWord b d e).extractLsb 7 5 = 0 := by
  revert b d e; decide

theorem legalStatus_statusError (e : CmdError) : LegalStatus (statusError e) :=
  .inr (.inr (statusError_cases e))

/-! ## Issue of a command that finds its operands invalid -/

/-- Every command's word decodes to it (30_encoding R80). -/
theorem decode_encode (i : Instr) : decode (encode i) = .command i := by
  cases i with
  | pad | unpad | cbcDecrypt => decide
  | ecbEncrypt p | ecbDecrypt p | cbcEncrypt p => cases p <;> decide

/-- Every cipher command checks `KEY_LEN` (60_exceptions R121). -/
theorem invalidInput_of_keyLen_ne {i : Instr} {s : State} (hi : isCipher i = true) (hk : s.keyLen ≠ 16) :
    invalidInput i s = true := by
  have hne : (s.keyLen != 16) = true := bne_iff_ne.mpr hk
  cases i with
  | pad | unpad => simp [isCipher] at hi
  | ecbEncrypt p | ecbDecrypt p | cbcEncrypt p | cbcDecrypt => simp only [invalidInput, hne, Bool.true_or]

theorem commandResult_of_invalidInput (P : Primitive) {i : Instr} {s : State} (h : invalidInput i s = true) :
    commandResult P i s = .error .invalidInput := if_pos h

/-- An Issue whose command finds its operands invalid raises `InvalidInput` (60_exceptions R121). -/
theorem raised_issueResult_of_invalidInput {w : Byte} {i : Instr} {s : State} (hw : decode w = .command i)
    (h : invalidInput i s = true) : Raised .invalidInput (issueResult w s) := by
  simp only [issueResult, hw, commandResult_accept, commandResult_of_invalidInput _ h]
  exact raised_of_error i _ _

/-! ## What a step may change -/

/-- A step to a next state either finds no transaction and changes nothing, or has the effect of the first one. -/
theorem step_next_cases {s t : State} (h : step s = .next t) :
    (s.inbox = [] ∧ t = s) ∨
      ∃ x rest, s.inbox = x :: rest ∧ TxnEffect x { s with inbox := rest } t := by
  cases hin : s.inbox with
  | nil =>
    rw [step_nil hin] at h
    exact .inl ⟨rfl, (Host.Outcome.next.inj h).symm⟩
  | cons x rest =>
    rw [step_cons hin] at h
    exact .inr ⟨x, rest, rfl, transact_next h⟩

theorem resultKept_iff {s t : State} :
    ResultKept s t ↔ t.dout = s.dout ∧ t.doutLen = s.doutLen ∧ t.status = s.status ∧ t.cmd = s.cmd :=
  ⟨fun h => ⟨h.dout, h.doutLen, h.status, h.cmd⟩, fun ⟨hd, hl, hs, hc⟩ => ⟨hd, hl, hs, hc⟩⟩

/-- Which transaction can change which registers (10_state R38). -/
theorem TxnEffect.changes {x : Txn} {s u : State} (h : TxnEffect x s u) :
    ((u.key ≠ s.key ∨ u.keyLen ≠ s.keyLen) → (∃ v, x = .loadKey v) ∨ x = .reset) ∧
    ((u.iv ≠ s.iv ∨ u.ivLen ≠ s.ivLen) → (∃ v, x = .loadIV v) ∨ x = .reset) ∧
    ((u.din ≠ s.din ∨ u.dinLen ≠ s.dinLen) → (∃ v, x = .loadData v) ∨ x = .reset) ∧
    (u.bsz ≠ s.bsz → (∃ v, x = .setBSZ v) ∨ x = .reset) ∧
    (¬ ResultKept s u → (∃ w, x = .issue w) ∨ x = .reset) := by
  cases x with
  | loadKey v =>
    obtain ⟨-, -, rfl⟩ := h
    simp [resultKept_iff]
  | loadIV v =>
    obtain ⟨-, -, rfl⟩ := h
    simp [resultKept_iff]
  | loadData v =>
    obtain ⟨-, -, rfl⟩ := h
    simp [resultKept_iff]
  | setBSZ v =>
    obtain ⟨-, rfl⟩ := h
    simp [resultKept_iff]
  | issue w =>
    obtain ⟨-, rfl⟩ := h
    obtain ⟨ho, -, -⟩ := issueResult_frame w s
    simp [ho.key, ho.keyLen, ho.iv, ho.ivLen, ho.bsz, ho.din, ho.dinLen]
  | readStatus =>
    obtain rfl := h
    simp [resultKept_iff]
  | readOut =>
    obtain ⟨-, -, rfl⟩ := h
    simp [resultKept_iff]
  | reset => simp

/-- The first transaction of the inbox, when it is of a given kind or Reset. -/
theorem exists_inbox_head {α : Type} [Inhabited α] {f : α → Txn} {s : State} {x : Txn} {rest : List Txn}
    (hin : s.inbox = x :: rest) (h : (∃ v, x = f v) ∨ x = .reset) :
    ∃ v rest, s.inbox = f v :: rest ∨ s.inbox = .reset :: rest := by
  obtain ⟨v, rfl⟩ | rfl := h
  · exact ⟨v, rest, .inl hin⟩
  · exact ⟨default, rest, .inr hin⟩

/-! ## The length of a result -/

@[simp] theorem length_ecbEncryptBytes (P : Primitive) (k : Block) (x : ByteSeq) :
    (ecbEncryptBytes P k x).length = 16 * (x.length / 16) := by simp [ecbEncryptBytes]

@[simp] theorem length_ecbDecryptBytes (P : Primitive) (k : Block) (x : ByteSeq) :
    (ecbDecryptBytes P k x).length = 16 * (x.length / 16) := by simp [ecbDecryptBytes]

@[simp] theorem length_cbcEncryptBytes (P : Primitive) (k c : Block) (x : ByteSeq) :
    (cbcEncryptBytes P k c x).length = 16 * (x.length / 16) := by simp [cbcEncryptBytes]

@[simp] theorem length_cbcDecryptBytes (P : Primitive) (k c : Block) (x : ByteSeq) :
    (cbcDecryptBytes P k c x).length = 16 * (x.length / 16) := by simp [cbcDecryptBytes]

theorem length_unpadBytes_le {x v : ByteSeq} {bs : Nat} (h : unpadBytes x bs = .ok v) :
    v.length ≤ x.length := by
  unfold unpadBytes at h
  split at h
  · cases h
  · dsimp only at h
    split_ifs at h
    obtain rfl := Except.ok.inj h
    exact List.length_take_le' _ _

theorem unpadBytes_of_mapError {x v : ByteSeq} {bs : Nat}
    (h : (unpadBytes x bs).mapError PaddingError.toCmdError = .ok v) : unpadBytes x bs = .ok v := by
  cases hr : unpadBytes x bs with
  | ok w => rw [hr] at h; exact congrArg Except.ok (Except.ok.inj h)
  | error e => rw [hr] at h; cases h

theorem length_encryptSource_le (p : Bool) (x : ByteSeq) :
    (encryptSource p x).length ≤ x.length + 16 := by
  cases p with
  | false => simp [encryptSource]
  | true => simp [encryptSource, padCount_le]

/-- A command makes its data longer by at most 255 bytes (10_state R20, 40_padding R94). -/
theorem length_commandResult_le {P : Primitive} {i : Instr} {s : State} {v : ByteSeq}
    (h : commandResult P i s = .ok v) : v.length ≤ s.dinLen + 255 := by
  cases hinv : invalidInput i s with
  | true => simp [commandResult_of_invalidInput P hinv] at h
  | false =>
    simp only [commandResult, hinv, Bool.false_eq_true, if_false] at h
    cases i with
    | pad =>
      obtain rfl := Except.ok.inj h
      have hpad := padCount_le s.dinLen s.bsz.toNat
      have hbsz := s.bsz.isLt
      simp only [length_padBytes, State.length_data]
      omega
    | unpad =>
      have hlen := length_unpadBytes_le (unpadBytes_of_mapError h)
      simp only [State.length_data] at hlen
      omega
    | ecbEncrypt p | cbcEncrypt p =>
      obtain rfl := Except.ok.inj h
      have hsrc := length_encryptSource_le p s.data
      simp only [length_ecbEncryptBytes, length_cbcEncryptBytes, State.length_data] at hsrc ⊢
      omega
    | ecbDecrypt p =>
      cases p with
      | false =>
        obtain rfl := Except.ok.inj h
        simp only [length_ecbDecryptBytes, State.length_data]
        omega
      | true =>
        have hlen := length_unpadBytes_le (unpadBytes_of_mapError h)
        simp only [length_ecbDecryptBytes, State.length_data] at hlen
        omega
    | cbcDecrypt =>
      obtain rfl := Except.ok.inj h
      simp only [length_cbcDecryptBytes, State.length_data]
      omega

/-- `DOUT` has room for 255 bytes more than `DIN` (00_scope R8). -/
theorem withinCapacity_doutCapacity {m n : Nat} (h : withinCapacity Config.MAXLEN m = true)
    (hn : n ≤ m + 255) : withinCapacity Config.doutCapacity n = true := by
  refine withinCapacity_iff.mpr fun cap hcap => ?_
  obtain ⟨maxlen, hmax, rfl⟩ := Option.map_eq_some_iff.mp hcap
  have := withinCapacity_iff.mp h maxlen hmax
  omega

/-! ## The invariant between transactions -/

theorem toNat_ofNat_length {v : ByteSeq} (h : v.length ≤ 255) : (BitVec.ofNat 8 v.length).toNat = v.length := by
  rw [BitVec.toNat_ofNat, Nat.mod_eq_of_lt (by omega)]

theorem withinCapacity_zero (cap : Option Nat) : withinCapacity cap 0 = true :=
  withinCapacity_iff.mpr fun m _ => Nat.zero_le m

theorem State.inv_reset : State.reset.Inv where
  key := Memory.holds_nil
  iv := Memory.holds_nil
  din := Memory.holds_nil
  dout := Memory.holds_nil
  dinLen := withinCapacity_zero _
  doutLen := withinCapacity_zero _
  status := .inl rfl
  result _ := rfl

section

variable {s : State} (h : s.Inv)
include h

theorem State.Inv.with_inbox (l : List Txn) : State.Inv { s with inbox := l } := { h with }

theorem State.Inv.loadKey {v : ByteSeq} (hv : v.length ≤ 255) : (s.loadKey v).Inv :=
  { h with key := by simpa [toNat_ofNat_length hv] using Memory.holds_fill v }

theorem State.Inv.loadIV {v : ByteSeq} (hv : v.length ≤ 255) : (s.loadIV v).Inv :=
  { h with iv := by simpa [toNat_ofNat_length hv] using Memory.holds_fill v }

theorem State.Inv.loadData {v : ByteSeq} (hv : withinCapacity Config.MAXLEN v.length = true) :
    (s.loadData v).Inv :=
  { h with din := Memory.holds_fill v, dinLen := hv }

theorem State.Inv.setBSZ (v : Byte) : (s.setBSZ v).Inv := { h with }

theorem State.Inv.answer (r : Reply) : (s.answer r).Inv := { h with }

/-- The invariant's part about the operands rests on the operands alone: what is left is to show its part about
the result. -/
theorem State.Inv.of_operandsKept {t : State} (ho : OperandsKept s t) (hdout : Memory.Holds t.dout t.doutLen)
    (hcap : withinCapacity Config.doutCapacity t.doutLen = true) (hstatus : LegalStatus t.status)
    (hresult : t.status ≠ 0x02 → t.doutLen = 0) : t.Inv where
  key := by rw [ho.key, ho.keyLen]; exact h.key
  iv := by rw [ho.iv, ho.ivLen]; exact h.iv
  din := by rw [ho.din, ho.dinLen]; exact h.din
  dout := hdout
  dinLen := by rw [ho.dinLen]; exact h.dinLen
  doutLen := hcap
  status := hstatus
  result := hresult

/-- Issue ends in `return v`, `v` within the capacity of `DOUT`, or in an error that leaves no result. -/
theorem State.Inv.issueResult (w : Byte) : (issueResult w s).Inv := by
  obtain ⟨ho, -, -⟩ := issueResult_frame w s
  obtain ⟨i, r, hend, hok⟩ := issueResult_cases w s
  rw [hend] at ho ⊢
  cases r with
  | ok v =>
    have hcap := withinCapacity_doutCapacity h.dinLen (length_commandResult_le (hok v rfl))
    obtain ⟨hstatus, hlen, -⟩ := delivered_of_ok i (s.accept w) v
    exact h.of_operandsKept ho (by simpa [State.endWith] using Memory.holds_fill v) (hlen ▸ hcap)
      (.inr (.inl hstatus)) fun hne => absurd hstatus hne
  | error e =>
    obtain ⟨hstatus, hlen, -⟩ := raised_of_error i (s.accept w) e
    exact h.of_operandsKept ho (by simpa [State.endWith] using Memory.holds_nil)
      (hlen ▸ withinCapacity_zero _) (hstatus ▸ legalStatus_statusError e) fun _ => hlen

theorem State.Inv.txnEffect {x : Txn} {u : State} (he : TxnEffect x s u) : u.Inv := by
  cases x with
  | loadKey v => obtain ⟨-, hv, rfl⟩ := he; exact h.loadKey hv
  | loadIV v => obtain ⟨-, hv, rfl⟩ := he; exact h.loadIV hv
  | loadData v => obtain ⟨-, hv, rfl⟩ := he; exact h.loadData hv
  | setBSZ v => obtain ⟨-, rfl⟩ := he; exact h.setBSZ v
  | issue w => obtain ⟨-, rfl⟩ := he; exact h.issueResult w
  | readStatus => obtain rfl := he; exact h.answer _
  | readOut => obtain ⟨-, -, rfl⟩ := he; exact h.answer _
  | reset => obtain rfl := he; exact { State.inv_reset with }

theorem State.Inv.step {t : State} (hstep : step s = .next t) : t.Inv := by
  obtain ⟨-, rfl⟩ | ⟨x, rest, -, he⟩ := step_next_cases hstep
  · exact h
  · exact (h.with_inbox rest).txnEffect he

end

/-! ## The block loop -/

theorem isCipher_of_usesChain {i : Instr} (h : usesChain i = true) : isCipher i = true := by
  cases i with
  | pad | unpad | ecbEncrypt p | ecbDecrypt p => simp [usesChain] at h
  | cbcEncrypt p | cbcDecrypt => rfl

@[simp] theorem seqSetup_blk (i : Instr) (s : State) : (seqSetup i s).blk = 0 := rfl

theorem seqSetup_nblk (i : Instr) (s : State) :
    (seqSetup i s).nblk = (s.dinLen + setupPadCount i s) / 16 := rfl

/-- Padding to 16 adds one block to the whole blocks of the data (70_reset_and_hazards R156). -/
theorem padded_blocks (len : Nat) : (len + padCount len 16) / 16 = len / 16 + 1 := by
  rw [padded_length (by omega), Nat.mul_div_cancel_left _ (by omega)]

/-- The block loop counts its steps in `BLK` (10_state R31). -/
theorem seqRun_blk (P : Primitive) {i : Instr} (hi : isCipher i = true) {k : Nat} {s : State}
    (hk : s.blk + k ≤ s.nblk) : (seqRun P i k s).blk = s.blk + k := by
  induction k with
  | zero => rfl
  | succ k ih => rw [seqRun_snoc P hi k s (by omega), seqBlock_blk P hi, ih (by omega), Nat.add_assoc]

/-- Fuel beyond `NBLK` changes nothing (70_reset_and_hazards R158). -/
theorem seqRun_of_nblk_le (P : Primitive) {i : Instr} (hi : isCipher i = true) {k : Nat} {s : State}
    (hs : s.blk = 0) (hk : s.nblk ≤ k) : seqRun P i k s = seqRun P i s.nblk s := by
  have hblk : (seqRun P i s.nblk s).blk = s.nblk := by
    rw [seqRun_blk P hi (by omega), hs, Nat.zero_add]
  obtain ⟨-, hnblk, -⟩ := seqRun_frame P i s.nblk s
  obtain ⟨extra, rfl⟩ := Nat.exists_eq_add_of_le hk
  rw [seqRun_add, seqRun_stop P i extra (by omega)]

/-- A CBC_ENCRYPT block step leaves in `CHAIN` the block it puts in `DOUT` (30_encoding R83). -/
theorem seqBlock_cbcEncrypt_chain (P : Primitive) (p : Bool) (s : State) :
    (seqBlock P (.cbcEncrypt p) s).chain = (seqBlock P (.cbcEncrypt p) s).readBlock .dout (16 * s.blk) :=
  (readBlock_putBlock s (P.E s.keyBlock (xorBlock (s.srcBlock s.blk) s.chain))).symm

/-- A CBC_DECRYPT block step leaves in `CHAIN` the block it takes from `DIN` (30_encoding R83). -/
theorem seqBlock_cbcDecrypt_chain (P : Primitive) (s : State) :
    (seqBlock P .cbcDecrypt s).chain = s.readBlock .din (16 * s.blk) := rfl

end Sys2Proof.Machine

open Sys2Proof Sys2Proof.Machine

/-- Settles O6: what each transaction can do keeps the invariant; for an Issue because its result is at most 255
bytes longer than the data. -/
theorem everyStepKeepsInvariant : Obligations.EveryStepKeepsInvariant :=
  fun _ _ h hstep => h.step hstep

/-- Settles O7: the transaction of a step that changes a register is among those that can change it. -/
theorem registersChangeOnlyByTheirTransactions : Obligations.RegistersChangeOnlyByTheirTransactions := by
  intro s t hstep
  obtain ⟨-, rfl⟩ | ⟨x, rest, hin, he⟩ := step_next_cases hstep
  · simp [resultKept_iff]
  · obtain ⟨hkey, hiv, hdin, hbsz, hresult⟩ := he.changes
    exact ⟨fun h => exists_inbox_head hin (hkey h), fun h => exists_inbox_head hin (hiv h),
      fun h => exists_inbox_head hin (hdin h), fun h => exists_inbox_head hin (hbsz h),
      fun h => exists_inbox_head hin (hresult fun hr => h ⟨hr.dout, hr.doutLen, hr.status, hr.cmd⟩)⟩

/-- Settles O57: every block step counts one block, the loop stops at `BLK = NBLK`, and padding adds one block. -/
theorem blockLoopIsCounted : Obligations.BlockLoopIsCounted := by
  intro P i s hi
  refine ⟨fun k hk => ?_, fun k hk => seqRun_of_nblk_le P hi rfl hk, ?_⟩
  · obtain ⟨-, hnblk, -⟩ := seqRun_frame P i k (seqSetup i s)
    exact ⟨by simpa using seqRun_blk P hi (s := seqSetup i s) (by simpa using hk), hnblk⟩
  · rw [seqSetup_nblk]
    cases i with
    | pad | unpad => simp [isCipher] at hi
    | ecbEncrypt p | cbcEncrypt p =>
      cases p with
      | false => rfl
      | true => exact padded_blocks s.dinLen
    | ecbDecrypt p | cbcDecrypt => rfl

/-- Settles O58: SETUP loads the IV, and the `k`-th block step leaves in `CHAIN` its own ciphertext block. -/
theorem chainHoldsPreviousCiphertextBlock : Obligations.ChainHoldsPreviousCiphertextBlock := by
  intro P i s k hi hk
  have hc := isCipher_of_usesChain hi
  cases k with
  | zero => simp [seqRun, seqSetup, hi, State.ivBlock]
  | succ k =>
    have hblk : (seqRun P i k (seqSetup i s)).blk = k := by
      simpa using seqRun_blk P hc (k := k) (s := seqSetup i s) (by rw [seqSetup_blk]; omega)
    obtain ⟨ho, -, -⟩ := seqRun_frame P i k (seqSetup i s)
    rw [seqRun_snoc P hc k _ (by rw [seqSetup_blk]; omega), if_neg k.succ_ne_zero, Nat.add_sub_cancel]
    cases i with
    | pad | unpad | ecbEncrypt p | ecbDecrypt p => simp [usesChain] at hi
    | cbcEncrypt p => rw [if_neg (by simp), seqBlock_cbcEncrypt_chain, hblk]
    | cbcDecrypt =>
      rw [if_pos rfl, seqBlock_cbcDecrypt_chain, hblk]
      exact State.readBlock_congr (sp := .din) ho.din _

/-- Settles O1: every cipher command checks `KEY_LEN`, which reset leaves 0. -/
theorem resetLeavesEngineEmpty : Obligations.ResetLeavesEngineEmpty := by
  refine ⟨rfl, rfl, rfl, rfl, rfl, rfl, rfl, rfl, rfl, rfl, fun i hi => ?_⟩
  have hk : State.reset.keyLen ≠ 16 := by decide
  exact ⟨_, step_issue rfl (State.inv_reset.with_inbox _).status.not_busy,
    raised_issueResult_of_invalidInput (decode_encode i) (invalidInput_of_keyLen_ne hi hk)⟩

/-- Settles O4: the values by computation, the fields by `statusWord_fields`. -/
theorem statusValuesAreTheTable : Obligations.StatusValuesAreTheTable := by
  refine ⟨rfl, statusBusy_eq, statusOk_eq, statusError_invalidInput, statusError_badLength,
    statusError_badPadding, statusError_illegalCmd, fun s b d e hs => ?_⟩
  rw [busy_of_status hs, done_of_status hs, err_of_status hs, hs]
  exact statusWord_fields b d e

/-- Settles O5: at reset every buffer is empty and every length 0. -/
theorem resetStateMeetsInvariant : Obligations.ResetStateMeetsInvariant := State.inv_reset

end

section
/-!
PROOFS. 20_memory: MemRead and MemWrite, a block as a 128-bit vector, and the host transactions.
-/

namespace Sys2Proof.Machine

/-! ## One buffer of the state (R50) -/

@[simp] theorem space_setSpace (s : State) (sp : Space) (m : Memory) : (s.setSpace sp m).space sp = m := by
  cases sp <;> rfl

/-- No buffer aliases another. -/
theorem space_setSpace_of_ne (s : State) {sp sp' : Space} (m : Memory) (h : sp' ≠ sp) :
    (s.setSpace sp m).space sp' = s.space sp' := by
  cases sp <;> cases sp' <;> simp [State.setSpace] at h ⊢

@[simp] theorem validLen_setSpace (s : State) (sp sp' : Space) (m : Memory) :
    (s.setSpace sp m).validLen sp' = s.validLen sp' := by
  cases sp <;> rfl

theorem setSpace_frame (s : State) (sp : Space) (m : Memory) :
    s.setSpace sp m = { s with key := (s.setSpace sp m).key, iv := (s.setSpace sp m).iv,
                               din := (s.setSpace sp m).din, dout := (s.setSpace sp m).dout } := by
  cases sp <;> rfl

/-! ## MemRead after MemWrite (R53) -/

/-- A buffer in which `v` was stored reads `v` back from where it was stored. -/
theorem memRead_of_write {t : State} {sp : Space} {m : Memory} {off : Nat} {v : ByteSeq}
    (h : t.space sp = Memory.write m off v) : t.memRead sp off v.length = v := by
  apply List.ext_getElem (by simp)
  intro j hj hjv
  rw [State.getElem_memRead, byteAt_of_write h, dif_pos (by omega)]
  congr 1
  omega

theorem space_memWrite (s : State) (sp : Space) (off : Nat) (v : ByteSeq) :
    (s.memWrite sp off v).space sp = Memory.write (s.space sp) off v := space_setSpace s sp _

/-- A byte that MemWrite does not name is as before. -/
theorem byteAt_memWrite_of_not_mem (s : State) {sp sp' : Space} {off a : Nat} {v : ByteSeq}
    (h : sp' ≠ sp ∨ a < off ∨ off + v.length ≤ a) :
    (s.memWrite sp off v).byteAt sp' a = s.byteAt sp' a := by
  by_cases hsp : sp' = sp
  · subst hsp
    have hout : a < off ∨ off + v.length ≤ a := h.resolve_left fun hne => hne rfl
    rw [byteAt_of_write (space_memWrite s sp' off v), dif_neg (by omega), State.byteAt]
  · rw [State.byteAt, State.memWrite, space_setSpace_of_ne s _ hsp, State.byteAt]

/-! ## A block as a 128-bit vector (R69) -/

/-- Bit `i` of byte `j`, through the sixteen concatenated bytes. -/
theorem getLsbD_blockToWord (b : Block) {j i : Nat} (hj : j < 16) (hi : i < 8) :
    (blockToWord b).getLsbD (120 - 8 * j + i) = b[j].getLsbD i := by
  unfold blockToWord
  interval_cases j <;> simp (disch := omega) only [BitVec.getLsbD_append, if_pos, if_neg]
  all_goals exact congrArg _ (by omega)

theorem getLsbD_wordToBlock (w : BitVec 128) {j i : Nat} (hj : j < 16) (hi : i < 8) :
    (wordToBlock w)[j].getLsbD i = w.getLsbD (120 - 8 * j + i) := by
  simp [wordToBlock, hi]

theorem wordToBlock_blockToWord (b : Block) : wordToBlock (blockToWord b) = b := by
  ext j hj i hi
  rw [← BitVec.getLsbD_eq_getElem, ← BitVec.getLsbD_eq_getElem, getLsbD_wordToBlock _ hj hi,
    getLsbD_blockToWord b hj hi]

/-- Every bit of the vector is a bit of one byte: bit `n` is bit `n % 8` of byte `(127 - n) / 8`. -/
theorem blockToWord_wordToBlock (w : BitVec 128) : blockToWord (wordToBlock w) = w := by
  refine BitVec.eq_of_getLsbD_eq fun n hn => ?_
  have hj : (127 - n) / 8 < 16 := by omega
  have hi : n % 8 < 8 := Nat.mod_lt _ (by decide)
  have hpos : n = 120 - 8 * ((127 - n) / 8) + n % 8 := by omega
  rw [hpos, getLsbD_blockToWord _ hj hi, getLsbD_wordToBlock w hj hi]

/-! ## A command that finds its operands invalid -/

/-- Every CBC command checks `IV_LEN` (60_exceptions R121). -/
theorem invalidInput_of_ivLen_ne {i : Instr} {s : State} (hi : usesChain i = true) (hv : s.ivLen ≠ 16) :
    invalidInput i s = true := by
  have hne : (s.ivLen != 16) = true := bne_iff_ne.mpr hv
  cases i with
  | pad | unpad | ecbEncrypt p | ecbDecrypt p => simp [usesChain] at hi
  | cbcEncrypt p | cbcDecrypt => simp only [invalidInput, hne, Bool.true_or, Bool.or_true]

/-- PAD and UNPAD check `BSZ` (60_exceptions R121). -/
theorem invalidInput_of_bsz_eq_zero {i : Instr} {s : State} (hi : isCipher i = false) (hb : s.bsz = 0) :
    invalidInput i s = true := by
  cases i with
  | pad | unpad => exact beq_iff_eq.mpr hb
  | ecbEncrypt p | ecbDecrypt p | cbcEncrypt p | cbcDecrypt => simp [isCipher] at hi

theorem exec_raises_of_invalidInput {i : Instr} {s : State} (h : invalidInput i s = true) :
    ∃ u, exec i s = .next u ∧ Raised .invalidInput u := by
  rw [exec_eq, commandResult_of_invalidInput _ h]
  exact ⟨_, rfl, raised_of_error i s _⟩

theorem ne_sixteen_of_toNat {x : Byte} {n : Nat} (hx : x.toNat = n) (hn : n ≠ 16) : x ≠ 16 := by
  rintro rfl
  exact hn hx.symm

/-! ## What one step makes of the next transaction (R56 to R63) -/

/-- While busy every transaction but ReadStatus and Reset is refused, whatever its operand (R63). -/
theorem step_busy {s : State} {x : Txn} {rest : List Txn} (hin : s.inbox = x :: rest) (hb : s.busy = true)
    (hstatus : x ≠ .readStatus) (hreset : x ≠ .reset) : step s = .refused .engineBusy := by
  rw [step_cons hin]
  cases x with
  | readStatus => exact absurd rfl hstatus
  | reset => exact absurd rfl hreset
  | loadKey v | loadIV v | loadData v | setBSZ v | issue w | readOut => exact if_pos hb

/-- An engine that is not busy refuses a load that is longer than its buffer. -/
theorem step_too_long {s : State} {x : Txn} {rest : List Txn} (hin : s.inbox = x :: rest) (hb : s.busy = false)
    (hf : x.fits = false) : step s = .refused .operandTooLong := by
  rw [step_cons hin]
  cases x with
  | loadKey v | loadIV v | loadData v => simp [transact, whenIdle, whenFits, hb, hf]
  | setBSZ v | issue w | readStatus | readOut | reset => simp [Txn.fits] at hf

/-- An engine that is not busy performs a transaction that fits; ReadOut needs a completed command too. -/
theorem step_idle {s : State} {x : Txn} {rest : List Txn} (hin : s.inbox = x :: rest) (hb : s.busy = false)
    (hf : x.fits = true) (hd : x = .readOut → s.done = true) :
    ∃ t, step s = .next t ∧ TxnEffect x { s with inbox := rest } t := by
  obtain ⟨t, ht⟩ := transact_idle (s := { s with inbox := rest }) hb hf hd
  exact ⟨t, (step_cons hin).trans ht, transact_next ht⟩

theorem txnEffect_of_step {s t : State} {x : Txn} {rest : List Txn} (hin : s.inbox = x :: rest)
    (h : step s = .next t) : TxnEffect x { s with inbox := rest } t :=
  transact_next ((step_cons hin).symm.trans h)

/-- A sequence longer than 255 bytes is longer than `KEY` and `IV` (00_scope R9). -/
theorem withinCapacity_255_eq_false {v : ByteSeq} (h : 255 < v.length) :
    withinCapacity (some 255) v.length = false := decide_eq_false (by omega)

theorem memRead_loadKey (s : State) (v : ByteSeq) : (s.loadKey v).memRead .key 0 v.length = v :=
  memRead_of_fill (m := []) rfl

theorem memRead_loadIV (s : State) (v : ByteSeq) : (s.loadIV v).memRead .iv 0 v.length = v :=
  memRead_of_fill (m := []) rfl

/-! ## The result the host obtains (R62) -/

theorem step_readOut_not_done {s : State} {rest : List Txn} (hin : s.inbox = .readOut :: rest)
    (hb : s.busy = false) (hd : s.done = false) : step s = .refused .noResult := by
  have hd' : State.done { s with inbox := rest } = false := hd
  simp [step_cons hin, transact, whenIdle, hb, hd']

theorem result_of_ok {s : State} (hd : s.done = true) (he : s.err = 0) : s.result = some (.ok s.out) := by
  simp [State.result, hd, he, errorOfCode]

theorem errorOfCode_code (e : CmdError) : errorOfCode e.code = some (some e) := by cases e <;> rfl

theorem result_of_error {s : State} (hd : s.done = true) (e : CmdError) (he : s.err = e.code) :
    s.result = some (.error e) := by
  simp [State.result, hd, he, errorOfCode_code]

/-- Without a successful command there is no result; the invariant says so of `DOUT_LEN`. -/
theorem State.Inv.no_result {s : State} (h : s.Inv) (he : s.err ≠ 0) : s.doutLen = 0 ∧ s.out = [] := by
  have hlen : s.doutLen = 0 := h.result fun hok => he (err_of_status hok)
  exact ⟨hlen, List.eq_nil_of_length_eq_zero ((State.length_out s).trans hlen)⟩

/-! ## The same Issue again (R68) -/

theorem Delivered.sameVisible {v : ByteSeq} {s t : State} (hs : Delivered v s) (ht : Delivered v t) :
    SameVisible s t :=
  ⟨hs.status.trans ht.status.symm, hs.doutLen.trans ht.doutLen.symm, hs.out.trans ht.out.symm⟩

theorem Raised.sameVisible {e : CmdError} {s t : State} (hs : Raised e s) (ht : Raised e t) :
    SameVisible s t :=
  ⟨hs.status.trans ht.status.symm, hs.doutLen.trans ht.doutLen.symm, hs.out.trans ht.out.symm⟩

/-- What the host sees of a completed command is its result or error alone. -/
theorem sameVisible_endWith (i : Instr) (s t : State) (r : Except CmdError ByteSeq) :
    SameVisible (leaveSequencer i (s.endWith r)) (leaveSequencer i (t.endWith r)) := by
  cases r with
  | ok v => exact (delivered_of_ok i s v).sameVisible (delivered_of_ok i t v)
  | error e => exact (raised_of_error i s e).sameVisible (raised_of_error i t e)

/-- A command's result rests on the operand registers and buffers alone (70_reset_and_hazards R154). -/
theorem commandResult_of_operandsKept (P : Primitive) (i : Instr) {s t : State} (h : OperandsKept s t) :
    commandResult P i t = commandResult P i s := by
  have hinv : invalidInput i t = invalidInput i s := by
    cases i <;> simp only [invalidInput, h.keyLen, h.ivLen, h.bsz, h.dinLen]
  have hkey : t.keyBlock = s.keyBlock := State.readBlock_congr (sp := .key) h.key 0
  have hiv : t.ivBlock = s.ivBlock := State.readBlock_congr (sp := .iv) h.iv 0
  have hdata : t.data = s.data := by
    rw [State.data, h.dinLen]
    exact State.memRead_congr (sp := .din) h.din 0 _
  simp only [commandResult, hinv, hkey, hiv, hdata, h.bsz]

theorem sameVisible_issueResult (w : Byte) {s t : State} (h : OperandsKept s t) :
    SameVisible (issueResult w s) (issueResult w t) := by
  unfold issueResult
  cases decode w with
  | command i =>
    simp only [commandResult_accept, commandResult_of_operandsKept _ i h]
    exact sameVisible_endWith i _ _ _
  | reserved _ => exact ⟨rfl, rfl, rfl⟩

/-- A completed Issue leaves the engine able to accept the next transaction (R60). -/
theorem busy_issueResult (w : Byte) (s : State) : (issueResult w s).busy = false := by
  refine LegalStatus.not_busy ?_
  obtain ⟨i, r, hend, -⟩ := issueResult_cases w s
  rw [hend]
  cases r with
  | ok v => exact .inr (.inl (delivered_of_ok i _ v).status)
  | error e => exact (raised_of_error i _ e).status ▸ legalStatus_statusError e

end Sys2Proof.Machine

open Sys2Proof Sys2Proof.Machine

/-- Settles O8: a byte MemWrite names reads as stored, and any other is in another buffer or at an offset the store
leaves alone. -/
theorem memWriteStoresNamedBytes : Obligations.MemWriteStoresNamedBytes := fun s sp off v =>
  ⟨memRead_of_write (space_memWrite s sp off v), fun _ _ h => byteAt_memWrite_of_not_mem s h,
    fun h => State.memWrite_wf h off v, fun sp' => validLen_setSpace s sp sp' _, setSpace_frame s sp _⟩

/-- Settles O9: the bits of the concatenated bytes, and each bit of the vector is a bit of one byte. -/
theorem blocksMapToWords : Obligations.BlocksMapToWords :=
  ⟨fun b _ hj _ hi => getLsbD_blockToWord b hj hi, wordToBlock_blockToWord, blockToWord_wordToBlock⟩

/-- Settles O19: a load discards what the first one left before it stores the same value. -/
theorem loadsAreIdempotent : Obligations.LoadsAreIdempotent := by
  intro s t u l rest hl hin hst htu
  have ht := txnEffect_of_step hin hst
  cases l with
  | loadKey v | loadIV v | loadData v =>
    obtain ⟨-, -, rfl⟩ := ht
    obtain ⟨-, -, rfl⟩ := txnEffect_of_step rfl htu
    rfl
  | setBSZ v =>
    obtain ⟨-, rfl⟩ := ht
    obtain ⟨-, rfl⟩ := txnEffect_of_step rfl htu
    rfl
  | issue w | readStatus | readOut | reset => simp at hl

/-- Settles O20: the first Issue leaves the operands as they were and the engine not busy, and the outcome rests on
the operands alone. -/
theorem sameIssueTwiceSameOutcome : Obligations.SameIssueTwiceSameOutcome := by
  intro s w rest hb hin
  obtain ⟨ho, -, hhost⟩ := issueResult_frame w { s with inbox := .issue w :: rest }
  refine ⟨_, _, step_issue hin hb, step_issue hhost.inbox (busy_issueResult w _),
    sameVisible_issueResult w { ho with }, ?_⟩
  obtain ⟨ho', -, -⟩ :=
    issueResult_frame w { issueResult w { s with inbox := .issue w :: rest } with inbox := rest }
  exact { ho' with }

/-- Settles O11: the three ways LoadKey goes; every cipher command checks `KEY_LEN`. -/
theorem loadKeyStoresKey : Obligations.LoadKeyStoresKey := by
  intro s v rest hin
  refine ⟨fun hb => step_busy hin hb nofun nofun, fun hb hv => ?_,
    fun hb hv => step_too_long hin hb (withinCapacity_255_eq_false hv)⟩
  obtain ⟨t, hstep, -, -, rfl⟩ := step_idle hin hb (decide_eq_true hv) nofun
  have hlen := toNat_ofNat_length hv
  exact ⟨_, hstep, rfl, hlen, memRead_loadKey _ v, fun hne i hi =>
    exec_raises_of_invalidInput (invalidInput_of_keyLen_ne hi (ne_sixteen_of_toNat hlen hne))⟩

/-- Settles O12: the three ways LoadIV goes; every CBC command checks `IV_LEN`. -/
theorem loadIVStoresIV : Obligations.LoadIVStoresIV := by
  intro s v rest hin
  refine ⟨fun hb => step_busy hin hb nofun nofun, fun hb hv => ?_,
    fun hb hv => step_too_long hin hb (withinCapacity_255_eq_false hv)⟩
  obtain ⟨t, hstep, -, -, rfl⟩ := step_idle hin hb (decide_eq_true hv) nofun
  have hlen := toNat_ofNat_length hv
  exact ⟨_, hstep, rfl, hlen, memRead_loadIV _ v, fun hne i hi =>
    exec_raises_of_invalidInput (invalidInput_of_ivLen_ne hi (ne_sixteen_of_toNat hlen hne))⟩

/-- Settles O13: the three ways LoadData goes, by whether the sequence is within `MAXLEN`. -/
theorem loadDataStoresData : Obligations.LoadDataStoresData := by
  refine ⟨fun _ _ => withinCapacity_iff, fun s v rest hin => ⟨fun hb => step_busy hin hb nofun nofun, fun hb => ?_⟩⟩
  split
  next hf => exact ⟨_, step_loadData hin hb hf, rfl, data_loadData _ v⟩
  next hf => exact step_too_long hin hb (Bool.eq_false_of_not_eq_true hf)

/-- Settles O15: SetBSZ has no operand too long for it; PAD and UNPAD check `BSZ`. -/
theorem setBSZWritesBlockSize : Obligations.SetBSZWritesBlockSize := by
  intro s v rest hin
  refine ⟨fun hb => step_busy hin hb nofun nofun, fun hb => ?_, fun hv i hi =>
    exec_raises_of_invalidInput (invalidInput_of_bsz_eq_zero hi hv)⟩
  obtain ⟨t, hstep, -, rfl⟩ := step_idle hin hb rfl nofun
  exact hstep

/-- Settles O16: ReadStatus does not look at `BUSY`, and no legal `STATUS` is busy. -/
theorem readStatusAnswersStatus : Obligations.ReadStatusAnswersStatus := by
  intro s rest hin
  refine ⟨step_cons hin, fun hstatus hb => hstatus.resolve_left fun hlegal => ?_⟩
  exact absurd hlegal.not_busy (by simp [hb])

/-- Settles O17: ReadOut looks at `DONE`, and the result is read off the code in `STATUS.ERR`. -/
theorem readOutAnswersResult : Obligations.ReadOutAnswersResult := by
  intro s rest hin hb
  refine ⟨fun hd => ⟨?_, result_of_ok hd, result_of_error hd .invalidInput, result_of_error hd .badLength,
    result_of_error hd .badPadding, result_of_error hd .illegalCmd, fun hinv he => hinv.no_result he⟩,
    step_readOut_not_done hin hb⟩
  obtain ⟨t, hstep, -, -, rfl⟩ := step_idle hin hb rfl fun _ => hd
  exact hstep

/-- Settles O18: every legal `STATUS` has `BUSY = 0`; ReadStatus and Reset do not look at it, the others do. -/
theorem busyEngineRefusesOtherTransactions : Obligations.BusyEngineRefusesOtherTransactions := by
  refine ⟨fun s h => h.status.not_busy, fun s x rest hin hb => ⟨?_, step_busy hin hb⟩⟩
  rintro (rfl | rfl)
  · exact ⟨_, step_cons hin⟩
  · exact ⟨_, step_cons hin⟩

end

section
/-!
PROOFS. 30_encoding: the command word, its decoder and encoder, what the six commands leave unchanged, the per-block
view, and host scripts.
-/

namespace Sys2Proof

/-! ## The command word (R71, R72, R75, R80) -/

/-- A word is its five fields, in order (R71). -/
theorem eq_append_fields (w : Byte) :
    w = cmdRSV w ++ BitVec.ofBool (cmdP w) ++ BitVec.ofBool (cmdC w) ++ BitVec.ofBool (cmdM w) ++
      BitVec.ofBool (cmdD w) := by
  refine BitVec.eq_of_getLsbD_eq fun n hn => ?_
  simp only [BitVec.getLsbD_append, cmdRSV, cmdP, cmdC, cmdM, cmdD]
  interval_cases n <;> simp

theorem cmdRSV_ne_zero_iff (w : Byte) : cmdRSV w ≠ 0 ↔ 0x10 ≤ w.toNat := by
  have hrsv : (cmdRSV w).toNat = w.toNat / 16 % 16 := by
    simp [cmdRSV, Nat.shiftRight_eq_div_pow]
  have hw := w.isLt
  rw [ne_eq, ← BitVec.toNat_inj, hrsv]
  change ¬ w.toNat / 16 % 16 = 0 ↔ _
  omega

theorem decode_of_cmdRSV_ne {w : Byte} (h : cmdRSV w ≠ 0) : decode w = .reserved .reservedBits := if_pos h

/-- A command's word, field by field: `P`, then `C`, `M`, `D`, the bits of its opcode. -/
theorem encode_eq_fields (i : Instr) :
    encode i = 0#4 ++ BitVec.ofBool (padFlagOf i) ++ BitVec.ofBool ((opcodeOf i).getLsbD 2) ++
      BitVec.ofBool ((opcodeOf i).getLsbD 1) ++ BitVec.ofBool ((opcodeOf i).getLsbD 0) := by
  cases i with
  | pad | unpad | cbcDecrypt => rfl
  | ecbEncrypt p | ecbDecrypt p | cbcEncrypt p => cases p <;> rfl

/-- A word that decodes to a command is that command's encoding (R80). -/
theorem encode_of_decode {w : Byte} {i : Instr} (h : decode w = .command i) : encode i = w := by
  unfold decode at h
  split at h
  · cases h
  · next hrsv =>
    rw [eq_append_fields w, not_not.mp hrsv]
    generalize cmdP w = p, cmdC w = c, cmdM w = m, cmdD w = d at h ⊢
    split at h <;> cases h <;> simp [encode_eq_fields, padFlagOf, opcodeOf]

theorem decode_eq_command_iff {w : Byte} {i : Instr} : decode w = .command i ↔ w = encode i :=
  ⟨fun h => (encode_of_decode h).symm, fun h => h ▸ Machine.decode_encode i⟩

/-- `Encode` as R80 writes it: `(P << 3) OR OPC`. -/
theorem encode_eq_shift_or (i : Instr) :
    encode i = ((if padFlagOf i then 1#8 else 0#8) <<< 3) ||| (opcodeOf i).zeroExtend 8 := by
  cases i with
  | pad | unpad | cbcDecrypt => rfl
  | ecbEncrypt p | ecbDecrypt p | cbcEncrypt p => cases p <;> rfl

/-- The rows of the opcode map are told apart by the bits of `0xF7`, which every row looks at (R72). -/
theorem opcodeMap_pattern {r : OpcodeRow} (hr : r ∈ opcodeMap) {w : Byte} (hw : w &&& r.mask = r.pattern) :
    w &&& 0xF7 = r.pattern := by
  have hrow : ∀ r ∈ opcodeMap, r.mask &&& 0xF7 = 0xF7 ∧ r.pattern &&& 0xF7 = r.pattern := by decide
  obtain ⟨hmask, hpattern⟩ := hrow r hr
  rw [← hpattern, ← hw, BitVec.and_assoc, hmask]

theorem opcodeMap_patterns_nodup : (opcodeMap.map OpcodeRow.pattern).Nodup := by decide

/-- The rows of the opcode map are disjoint: a word selects at most one (R72). -/
theorem length_rowsSelected_le (w : Byte) : (rowsSelected w).length ≤ 1 := by
  have hsub : ((rowsSelected w).map OpcodeRow.pattern).Sublist (opcodeMap.map OpcodeRow.pattern) :=
    List.filter_sublist.map _
  have hnodup := opcodeMap_patterns_nodup.sublist hsub
  have hsame : ∀ v ∈ (rowsSelected w).map OpcodeRow.pattern, v = w &&& 0xF7 := by
    intro v hv
    obtain ⟨r, hr, rfl⟩ := List.mem_map.mp hv
    obtain ⟨hmem, hsel⟩ := List.mem_filter.mp hr
    exact (opcodeMap_pattern hmem (beq_iff_eq.mp hsel)).symm
  rw [List.eq_replicate_of_mem hsame, List.nodup_replicate] at hnodup
  simpa using hnodup

/-- A word is its bits of `0xF7` and its bit 3, the `pad` flag (R71). -/
theorem eq_or_padFlag (w : Byte) : w = (w &&& 0xF7) ||| (if cmdP w then 0x08 else 0x00) := by
  have hflag : w &&& 0x08 = if cmdP w then 0x08 else 0x00 := BitVec.and_twoPow w 3
  rw [← hflag, ← BitVec.and_or_distrib_left]
  exact BitVec.and_allOnes.symm

/-- A row selected gives a command whose encoding is the word (R72, R80). -/
theorem eq_encode_of_row {w : Byte} {r : OpcodeRow} (hr : r ∈ opcodeMap) (hw : w &&& r.mask = r.pattern) :
    w = encode (r.command (cmdP w)) := by
  have hfull : w &&& 0xFF = w := BitVec.and_allOnes
  have hflag := eq_or_padFlag w
  simp only [opcodeMap, List.mem_cons, List.not_mem_nil, or_false] at hr
  obtain rfl | rfl | rfl | rfl | rfl | rfl := hr
  case inl | inr.inl | inr.inr.inr.inr.inr =>
    rw [show w = _ from hfull.symm.trans hw]
    rfl
  all_goals
    rw [show w &&& 0xF7 = _ from hw] at hflag
    refine hflag.trans ?_
    generalize cmdP w = p
    cases p <;> rfl

theorem exists_row_encode (i : Instr) :
    ∃ r ∈ opcodeMap, encode i &&& r.mask = r.pattern ∧ r.command (cmdP (encode i)) = i := by
  cases i with
  | pad | unpad | cbcDecrypt => decide
  | ecbEncrypt p | ecbDecrypt p | cbcEncrypt p => cases p <;> decide

/-- The words of the six commands, as a list (R75). -/
theorem exists_eq_encode_iff {w : Byte} :
    (∃ i, w = encode i) ↔ w ∈ [0x00, 0x01, 0x04, 0x05, 0x06, 0x07, 0x0C, 0x0D, 0x0E] := by
  constructor
  · rintro ⟨i, rfl⟩
    cases i with
    | pad | unpad | cbcDecrypt => decide
    | ecbEncrypt p | ecbDecrypt p | cbcEncrypt p => cases p <;> decide
  · simp only [List.mem_cons, List.not_mem_nil, or_false]
    rintro (rfl | rfl | rfl | rfl | rfl | rfl | rfl | rfl | rfl)
    exacts [⟨.pad, rfl⟩, ⟨.unpad, rfl⟩, ⟨.ecbEncrypt false, rfl⟩, ⟨.ecbDecrypt false, rfl⟩,
      ⟨.cbcEncrypt false, rfl⟩, ⟨.cbcDecrypt, rfl⟩, ⟨.ecbEncrypt true, rfl⟩, ⟨.ecbDecrypt true, rfl⟩,
      ⟨.cbcEncrypt true, rfl⟩]

/-- The sixteen words whose bits 7:4 are zero: why each of the seven reserved ones is (R75). -/
theorem reserved_of_cmdRSV_eq {w : Byte} (h : cmdRSV w = 0) :
    (decode w = .reserved .modeWithoutCipher ↔ w ∈ [0x02, 0x03, 0x0A, 0x0B]) ∧
    (decode w = .reserved .padFlagOnPadding ↔ w ∈ [0x08, 0x09]) ∧
    (decode w = .reserved .padFlagOnCbcDecrypt ↔ w = 0x0F) ∧
    decode w ≠ .reserved .reservedBits := by
  rw [eq_append_fields w, h]
  generalize cmdP w = p, cmdC w = c, cmdM w = m, cmdD w = d
  revert p c m d
  decide

end Sys2Proof

namespace Sys2Proof.Machine

/-! ## Issue of a command (R81) -/

/-- The state Issue prepares for the command (R81); no byte of `DOUT` is listed (log entry 3). -/
theorem accept_eq (s : State) (w : Byte) :
    s.accept w = { s with cmd := w, dout := [], doutLen := 0, status := 0x01 } := by
  rw [← statusBusy_eq]; rfl

theorem issueCommand_of_decode {w : Byte} {i : Instr} (h : decode w = .command i) (s : State) :
    issueCommand w s = exec i (s.accept w) := by
  simp only [issueCommand, h]

/-! ## What a command leaves unchanged (R74) -/

theorem statusError_ne_ok (e : CmdError) : statusError e ≠ 0x02 := by cases e <;> decide

/-- The buffers that hold operands read as before. -/
theorem OperandsKept.byteAt {s t : State} (h : OperandsKept s t) {sp : Space} (hsp : sp ≠ .dout) (a : Nat) :
    t.byteAt sp a = s.byteAt sp a := by
  have hspace : t.space sp = s.space sp := by
    cases sp with
    | key => exact h.key
    | iv => exact h.iv
    | din => exact h.din
    | dout => exact absurd rfl hsp
  rw [State.byteAt, hspace, State.byteAt]

/-- A successful command leaves the bytes of `DOUT` at and above the length of its result (log entry 3). -/
theorem byteAt_dout_of_ok (i : Instr) (s : State) {v : ByteSeq} {a : Nat} (h : v.length ≤ a) :
    (leaveSequencer i (s.endWith (.ok v))).byteAt .dout a = s.byteAt .dout a := by
  rw [byteAt_of_write (m := s.dout) (off := 0) (v := v) (by simp [State.endWith]), dif_neg (by omega)]
  rfl

/-! ## The per-block view (R82, R83) -/

/-- The blocks a cipher command makes, in index order; ECB_DECRYPT with `P = 1` then unpads them. -/
def cipherBlocks (P : Primitive) (i : Instr) (s : State) : List Block :=
  match i with
  | .pad | .unpad => []
  | .ecbEncrypt p => (blocks (encryptSource p s.data)).map (P.E s.keyBlock)
  | .ecbDecrypt _ => (blocks s.data).map (P.D s.keyBlock)
  | .cbcEncrypt p => cbcEncryptBlocks P s.keyBlock s.ivBlock (blocks (encryptSource p s.data))
  | .cbcDecrypt => cbcDecryptBlocks P s.keyBlock s.ivBlock (blocks s.data)

theorem length_encryptSource_eq {i : Instr} {p : Bool} (hi : i = .ecbEncrypt p ∨ i = .cbcEncrypt p) (s : State) :
    (encryptSource p s.data).length = s.dinLen + setupPadCount i s := by
  obtain rfl | rfl := hi
  all_goals cases p <;> simp [encryptSource, setupPadCount]

/-- There are as many blocks as SETUP puts in `NBLK` (R82). -/
theorem length_cipherBlocks (P : Primitive) {i : Instr} (hi : isCipher i = true) (s : State) :
    (cipherBlocks P i s).length = (seqSetup i s).nblk := by
  rw [seqSetup_nblk]
  cases i with
  | pad | unpad => simp [isCipher] at hi
  | ecbEncrypt p => simp [cipherBlocks, length_encryptSource_eq (.inl rfl)]
  | cbcEncrypt p => simp [cipherBlocks, length_encryptSource_eq (.inr rfl)]
  | ecbDecrypt p | cbcDecrypt => simp [cipherBlocks, setupPadCount]

/-- FINISH of a command ends it with its result, once `DOUT` holds its blocks (R82, R84). -/
theorem seqFinish_eq (P : Primitive) {i : Instr} (hi : isCipher i = true) {s t : State}
    (hvalid : invalidInput i s = false) (h : t.memRead .dout 0 (16 * t.nblk) = joinBlocks (cipherBlocks P i s)) :
    seqFinish i t = t.endWith (commandResult P i s) := by
  simp only [commandResult, hvalid, Bool.false_eq_true, if_false]
  cases i with
  | pad | unpad => simp [isCipher] at hi
  | ecbEncrypt p | cbcEncrypt p | cbcDecrypt => simp only [seqFinish, h]; rfl
  | ecbDecrypt p =>
    cases p with
    | false => simp only [seqFinish, h]; rfl
    | true => simp only [seqFinish, h, deliver_eq]; rfl

/-- What a CBC block step writes to `DOUT`, besides the ciphertext block it leaves in `CHAIN` (R83). -/
theorem seqBlock_cbcEncrypt_readBlock (P : Primitive) (p : Bool) (s : State) (off : Nat) :
    (seqBlock P (.cbcEncrypt p) s).readBlock .dout off =
      (s.putBlock (P.E s.keyBlock (xorBlock (s.srcBlock s.blk) s.chain))).readBlock .dout off :=
  State.readBlock_congr (by simp [seqBlock]) off

theorem seqBlock_cbcDecrypt_readBlock (P : Primitive) (s : State) (off : Nat) :
    (seqBlock P .cbcDecrypt s).readBlock .dout off =
      (s.putBlock (xorBlock (P.D s.keyBlock (s.readBlock .din (16 * s.blk))) s.chain)).readBlock .dout off :=
  State.readBlock_congr (by simp [seqBlock]) off

/-- A block step leaves the blocks of `DOUT` before its own (R83). -/
theorem seqBlock_readBlock_lt (P : Primitive) (i : Instr) (s : State) {j : Nat} (h : j < s.blk) :
    (seqBlock P i s).readBlock .dout (16 * j) = s.readBlock .dout (16 * j) := by
  cases i with
  | pad | unpad => rfl
  | ecbEncrypt p | ecbDecrypt p => exact readBlock_putBlock_lt s _ h
  | cbcEncrypt p => rw [seqBlock_cbcEncrypt_readBlock, readBlock_putBlock_lt s _ h]
  | cbcDecrypt => rw [seqBlock_cbcDecrypt_readBlock, readBlock_putBlock_lt s _ h]

theorem OperandsKept.keyBlock {s t : State} (h : OperandsKept s t) : t.keyBlock = s.keyBlock :=
  State.readBlock_congr (sp := .key) h.key 0

/-- `Blk(Src, n)` rests on the data and the pad count. -/
theorem OperandsKept.srcBlock {s t : State} (h : OperandsKept s t) (hpadn : t.padn = s.padn) (n : Nat) :
    t.srcBlock n = s.srcBlock n := by
  simp only [State.srcBlock, State.srcByte, h.dinLen, hpadn, h.byteAt (sp := .din) nofun]

/-- `Blk(Src, n)` of an encrypt, in the block loop and in the whole-command view. -/
theorem srcBlock_eq_getElem_blocks {i : Instr} {p : Bool} (hi : i = .ecbEncrypt p ∨ i = .cbcEncrypt p)
    {s t : State} (h : OperandsKept (seqSetup i s) t) (hpadn : t.padn = (seqSetup i s).padn) {n : Nat}
    (hn : n < (blocks (encryptSource p s.data)).length) :
    t.srcBlock n = (blocks (encryptSource p s.data))[n] := by
  rw [getElem_blocks, blk_encryptSource hi s n (by rw [length_blocks] at hn; omega), h.srcBlock hpadn]

theorem readBlock_din_eq_getElem_blocks {s t : State} (h : t.din = s.din) {n : Nat}
    (hn : n < (blocks s.data).length) : t.readBlock .din (16 * n) = (blocks s.data)[n] := by
  rw [getElem_blocks, blk_data s n (by simp at hn; omega)]
  exact State.readBlock_congr (sp := .din) h _

/-- The block step of index `BLK` puts that block of the command's, given the ciphertext block before it in `CHAIN`
(R83). -/
theorem seqBlock_readBlock (P : Primitive) {i : Instr} {s t : State} (ho : OperandsKept (seqSetup i s) t)
    (hpadn : t.padn = (seqSetup i s).padn) (hn : t.blk < (cipherBlocks P i s).length)
    (hchain : usesChain i = true → t.chain =
      if t.blk = 0 then s.readBlock .iv 0
      else if i = .cbcDecrypt then s.readBlock .din (16 * (t.blk - 1))
      else (cipherBlocks P i s)[t.blk - 1]) :
    (seqBlock P i t).readBlock .dout (16 * t.blk) = (cipherBlocks P i s)[t.blk] := by
  have hkey : t.keyBlock = s.keyBlock := ho.keyBlock
  cases i with
  | pad | unpad => simp [cipherBlocks] at hn
  | ecbEncrypt p =>
    refine (readBlock_putBlock t _).trans ?_
    simp only [cipherBlocks, List.length_map] at hn ⊢
    rw [List.getElem_map, hkey, srcBlock_eq_getElem_blocks (.inl rfl) ho hpadn hn]
  | ecbDecrypt p =>
    refine (readBlock_putBlock t _).trans ?_
    simp only [cipherBlocks, List.length_map] at hn ⊢
    rw [List.getElem_map, hkey, readBlock_din_eq_getElem_blocks (s := s) ho.din hn]
  | cbcEncrypt p =>
    rw [seqBlock_cbcEncrypt_readBlock, readBlock_putBlock]
    simp only [cipherBlocks, length_cbcEncryptBlocks] at hn ⊢
    rw [getElem_cbcEncryptBlocks _ _ _ _ _ hn, hkey, srcBlock_eq_getElem_blocks (.inr rfl) ho hpadn hn,
      hchain rfl]
    simp [State.ivBlock, cipherBlocks]
  | cbcDecrypt =>
    rw [seqBlock_cbcDecrypt_readBlock, readBlock_putBlock]
    simp only [cipherBlocks, length_cbcDecryptBlocks] at hn ⊢
    rw [getElem_cbcDecryptBlocks _ _ _ _ _ hn, hkey, readBlock_din_eq_getElem_blocks (s := s) ho.din hn, hchain rfl]
    by_cases hzero : t.blk = 0
    · simp only [hzero, if_true, dif_pos, State.ivBlock]
    · rw [if_neg hzero, if_pos rfl, dif_neg hzero, readBlock_din_eq_getElem_blocks (s := s) rfl (by omega)]

/-- After `k` block steps `DOUT` holds the first `k` blocks (R82, R83). -/
theorem seqRun_readBlock (P : Primitive) {i : Instr} (hi : isCipher i = true) (s : State) {k : Nat}
    (hk : k ≤ (cipherBlocks P i s).length) (j : Nat) (hj : j < k) :
    (seqRun P i k (seqSetup i s)).readBlock .dout (16 * j) = (cipherBlocks P i s)[j] := by
  have hlen := length_cipherBlocks P hi s
  induction k generalizing j with
  | zero => omega
  | succ k ih =>
    have hblk : (seqRun P i k (seqSetup i s)).blk = k := by
      rw [seqRun_blk P hi (by rw [seqSetup_blk]; omega), seqSetup_blk, Nat.zero_add]
    obtain ⟨ho, -, hpadn⟩ := seqRun_frame P i k (seqSetup i s)
    rw [seqRun_snoc P hi k _ (by rw [seqSetup_blk]; omega)]
    obtain hlt | rfl := Nat.lt_succ_iff_lt_or_eq.mp hj
    · rw [seqBlock_readBlock_lt P i _ (by omega)]
      exact ih (by omega) j hlt
    · have hchain (hc : usesChain i = true) := chainHoldsPreviousCiphertextBlock P i s j hc (by omega)
      have hput := seqBlock_readBlock P ho hpadn (by omega) fun hc => by
        rw [hchain hc]
        simp only [hblk]
        split
        · rfl
        · rw [ih (by omega) (j - 1) (by omega)]
      simpa only [hblk] using hput

/-- A buffer that holds the blocks in order reads as their bytes. -/
theorem memRead_eq_joinBlocks {t : State} {sp : Space} {bs : List Block}
    (h : ∀ j (hj : j < bs.length), t.readBlock sp (16 * j) = bs[j]) :
    t.memRead sp 0 (16 * bs.length) = joinBlocks bs := by
  rw [← joinBlocks_blocks (x := t.memRead sp 0 (16 * bs.length)) (by simp)]
  congr 1
  apply List.ext_getElem (by simp)
  intro j hj hjb
  rw [getElem_blocks, ← h j hjb]
  ext n hn : 1
  rw [getElem_blk, getElem_readBlock, List.getD_eq_getElem _ _ (by simp; omega), State.getElem_memRead,
    Nat.zero_add]

/-- What RUN leaves for FINISH in `DOUT`. -/
theorem memRead_seqProcess (P : Primitive) {i : Instr} (hi : isCipher i = true) (s : State) :
    (seqProcess P i s).memRead .dout 0 (16 * (seqProcess P i s).nblk) = joinBlocks (cipherBlocks P i s) := by
  have hlen := length_cipherBlocks P hi s
  obtain ⟨-, hnblk, -⟩ := seqRun_frame P i (seqSetup i s).nblk (seqSetup i s)
  rw [seqProcess, hnblk, ← hlen]
  exact memRead_eq_joinBlocks fun j hj => seqRun_readBlock P hi s le_rfl j hj

theorem seqCommand_eq (P : Primitive) {i : Instr} (hi : isCipher i = true) (s : State) :
    seqCommand P i s = (if invalidInput i s then s else seqProcess P i s).endWith (commandResult P i s) := by
  unfold seqCommand
  cases hinv : invalidInput i s with
  | true => rw [commandResult_of_invalidInput P hinv]; rfl
  | false => exact seqFinish_eq P hi hinv (memRead_seqProcess P hi s)

/-- What the host sees does not rest on how the sequencer registers are left. -/
theorem sameVisible_leaveSequencer (i : Instr) (s t : State) (r : Except CmdError ByteSeq) :
    SameVisible (leaveSequencer i (s.endWith r)) (t.endWith r) := by
  cases r with
  | ok v => exact (delivered_of_ok i s v).sameVisible (delivered_of_ok .pad t v)
  | error e => exact (raised_of_error i s e).sameVisible (raised_of_error .pad t e)

/-! ## Host scripts (R79) -/

theorem ScriptOutcome.andThen_goesOn (o : ScriptOutcome) : o.andThen .goesOn = o := by cases o <;> rfl

theorem ScriptOutcome.andThen_eq_goesOn {o : ScriptOutcome} {f : State → ScriptOutcome} {t : State}
    (h : o.andThen f = .goesOn t) : ∃ s, o = .goesOn s ∧ f s = .goesOn t := by
  cases o with
  | goesOn s => exact ⟨s, rfl, h⟩
  | stopped s | refused r | faulted e => simp [ScriptOutcome.andThen] at h

/-- A script goes on from a transaction that has a step, and so has its effect. -/
theorem txnEffect_of_scriptTxn {x : Txn} {s t : State} (h : scriptTxn x s = .goesOn t) : TxnEffect x s t := by
  refine transact_next ?_
  unfold scriptTxn at h
  cases ho : transact x s with
  | next u => rw [ho] at h; rw [ScriptOutcome.goesOn.inj h]
  | fault f | refused r => rw [ho] at h; simp [ScriptOutcome.ofStep] at h

theorem runScript_nil : runScript [] = .goesOn := rfl

theorem runScript_cons (l : ScriptLine) (ls : List ScriptLine) :
    runScript (l :: ls) = fun s => (scriptLine l s).andThen (runScript ls) := rfl

@[simp] theorem out_answer (s : State) (r : Reply) : (s.answer r).out = s.out :=
  State.memRead_congr (sp := .dout) rfl 0 s.doutLen

/-- A load of the data leaves the result. -/
@[simp] theorem out_loadData (s : State) (v : ByteSeq) : (s.loadData v).out = s.out :=
  State.memRead_congr (sp := .dout) rfl 0 s.doutLen

/-- MOVEOUT on an error: the script stops after its READSTATUS. -/
theorem moveOut_of_error {s : State} (he : s.err ≠ 0) : moveOut s = .stopped (s.answer (.status s.status)) :=
  if_pos he

theorem scriptTxn_readOut {s : State} (hb : s.busy = false) (hd : s.done = true) :
    scriptTxn .readOut s = .goesOn (s.answer (.out s.doutLen s.out)) := by
  simp [scriptTxn, transact, whenIdle, hb, hd, ScriptOutcome.ofStep]

theorem scriptTxn_loadData {s : State} (hb : s.busy = false) (v : ByteSeq) :
    scriptTxn (.loadData v) s =
      if withinCapacity Config.MAXLEN v.length then .goesOn (s.loadData v) else .refused .operandTooLong := by
  have hfits : Txn.fits (.loadData v) = withinCapacity Config.MAXLEN v.length := rfl
  cases hf : withinCapacity Config.MAXLEN v.length <;>
    simp [scriptTxn, transact, whenIdle, whenFits, hb, hfits, hf, ScriptOutcome.ofStep]

/-- MOVEOUT of a result: the two reads, and a LOADDATA of what the second gave. -/
theorem moveOut_of_ok {s : State} (hb : s.busy = false) (he : s.err = 0) (hd : s.done = true) :
    moveOut s =
      if withinCapacity Config.MAXLEN s.doutLen then
        .goesOn (((s.answer (.status s.status)).answer (.out s.doutLen s.out)).loadData s.out)
      else .refused .operandTooLong :=
  calc moveOut s
    _ = (scriptTxn .readOut (s.answer (.status s.status))).andThen fun u => scriptTxn (.loadData u.out) u :=
      if_neg (not_not.mpr he)
    _ = scriptTxn (.loadData s.out) ((s.answer (.status s.status)).answer (.out s.doutLen s.out)) := by
      rw [scriptTxn_readOut (s := s.answer _) hb hd]
      rfl
    _ = _ := by rw [scriptTxn_loadData (s := (s.answer _).answer _) hb, State.length_out]

end Sys2Proof.Machine

open Sys2Proof Sys2Proof.Machine

/-- Settles O29: a command ends in `return v` or an error, and neither writes an operand; `return v` writes `DOUT`
below its length only. -/
theorem commandsLeaveTheRestUnchanged : Obligations.CommandsLeaveTheRestUnchanged := by
  intro i s t h
  rw [exec_eq] at h
  obtain rfl := Host.Outcome.next.inj h
  have hframe := leaveSequencer_endWith_frame i s (commandResult Config.primitive i s)
  refine ⟨hframe, fun _ a hsp => hframe.operands.byteAt hsp a, fun hstatus a ha => ?_⟩
  cases hr : commandResult Config.primitive i s with
  | ok v =>
    rw [hr, (delivered_of_ok i s v).doutLen] at ha
    exact byteAt_dout_of_ok i s ha
  | error e =>
    rw [hr, (raised_of_error i s e).status] at hstatus
    exact absurd hstatus (statusError_ne_ok e)

/-- Settles O56: the block loop leaves in `DOUT` the blocks whose bytes are the command's result, or what it unpads. -/
theorem perBlockViewAgreesWithCommand : Obligations.PerBlockViewAgreesWithCommand := by
  intro P i s hi
  refine ⟨_, commandWith_eq P i s, ?_⟩
  rw [seqCommand_eq P hi]
  exact sameVisible_leaveSequencer i s _ _

/-- Settles O59: READSTATUS finds the error or none; READOUT gives the result, and LOADDATA looks at its length. -/
theorem moveOutFeedsResultToData : Obligations.MoveOutFeedsResultToData := by
  intro s hb
  refine ⟨fun he => ⟨_, moveOut_of_error he⟩, fun he hd => ?_⟩
  rw [moveOut_of_ok hb he hd]
  split
  next hf => exact ⟨_, rfl, by simp⟩
  next hf => rfl

/-- Settles O22: each of the nine words is the encoding of its command. -/
theorem sampleWordsDecode : Obligations.SampleWordsDecode :=
  ⟨decode_encode .pad, decode_encode .unpad, decode_encode (.ecbEncrypt false), decode_encode (.ecbEncrypt true),
    decode_encode (.ecbDecrypt false), decode_encode (.ecbDecrypt true), decode_encode (.cbcEncrypt false),
    decode_encode (.cbcEncrypt true), decode_encode .cbcDecrypt⟩

/-- Settles O23: a word with a bit of 7:4 set is reserved for it; the other sixteen are six commands' nine words and
seven reserved ones. -/
theorem nineWordsAreLegal : Obligations.NineWordsAreLegal := by
  intro w
  refine ⟨(exists_congr fun _ => decode_eq_command_iff).trans exists_eq_encode_iff, ?_⟩
  rw [← cmdRSV_ne_zero_iff]
  by_cases h : cmdRSV w = 0
  · obtain ⟨hmode, hpad, hcbc, hbits⟩ := reserved_of_cmdRSV_eq h
    exact ⟨hmode, hpad, hcbc, iff_of_false hbits (not_not.mpr h)⟩
  · have hlow : ∀ l : List Byte, (∀ v ∈ l, cmdRSV v = 0) → w ∉ l := fun l hl hw => h (hl w hw)
    rw [decode_of_cmdRSV_ne h]
    exact ⟨iff_of_false nofun (hlow _ (by decide)), iff_of_false nofun (hlow _ (by decide)),
      iff_of_false nofun (by rintro rfl; exact h rfl), iff_of_true rfl h⟩

/-- Settles O24: the rows differ in the bits all of them look at, and the row a word selects encodes to it. -/
theorem decodeAgreesWithOpcodeMap : Obligations.DecodeAgreesWithOpcodeMap := by
  intro w
  have hcommand : ∀ i, decode w = .command i ↔
      ∃ r ∈ opcodeMap, w &&& r.mask = r.pattern ∧ r.command (cmdP w) = i := by
    intro i
    rw [decode_eq_command_iff]
    constructor
    · rintro rfl
      exact exists_row_encode i
    · rintro ⟨r, hr, hw, rfl⟩
      exact eq_encode_of_row hr hw
  refine ⟨length_rowsSelected_le w, ?_, hcommand⟩
  rw [List.length_eq_zero_iff, rowsSelected, List.filter_eq_nil_iff]
  constructor
  · intro hnone
    cases hd : decode w with
    | reserved why => exact ⟨why, rfl⟩
    | command i =>
      obtain ⟨r, hr, hw, -⟩ := (hcommand i).mp hd
      exact absurd (beq_iff_eq.mpr hw) (hnone r hr)
  · rintro ⟨why, hd⟩ r hr hw
    have hselected := (hcommand _).mpr ⟨r, hr, beq_iff_eq.mp hw, rfl⟩
    cases hd.symm.trans hselected

/-- Settles O25: each command's word has its fields, and the fields of a legal word are those of its command. -/
theorem encodeIsInverseOfDecode : Obligations.EncodeIsInverseOfDecode :=
  ⟨fun i _ => ⟨decode_encode i, encode_eq_shift_or i⟩, fun _ _ => encode_of_decode⟩

/-- Settles O26: Issue prepares the state R81 names and runs the decoded command on it. -/
theorem stepRunsDecodedCommand : Obligations.StepRunsDecodedCommand := by
  intro s w rest i hin hb hd
  rw [step_cons hin, transact, whenIdle, busy_with_inbox, hb, issueCommand_of_decode hd, accept_eq]
  rfl

/-- Settles O60: the script's four lines are the expansion; its SETBSZ writes 16, and UNPAD keeps `BSZ`. -/
theorem cbcDecryptUnpadIsItsExpansion : Obligations.CbcDecryptUnpadIsItsExpansion := by
  intro s
  refine ⟨?_, fun t h => ?_⟩
  · simp only [runScript_cons, runScript_nil, ScriptOutcome.andThen_goesOn]
    rfl
  · obtain ⟨s₁, -, h⟩ := ScriptOutcome.andThen_eq_goesOn h
    obtain ⟨s₂, -, h⟩ := ScriptOutcome.andThen_eq_goesOn h
    obtain ⟨s₃, hset, hissue⟩ := ScriptOutcome.andThen_eq_goesOn h
    obtain ⟨-, rfl⟩ := txnEffect_of_scriptTxn hset
    obtain ⟨-, rfl⟩ := txnEffect_of_scriptTxn hissue
    obtain ⟨ho, -, -⟩ := issueResult_frame (encode .unpad) (s₂.setBSZ 16)
    exact ho.bsz

end

section
/-!
PROOFS. 40_padding: `pad` and `unpad`, and the commands PAD and UNPAD.
-/

namespace Sys2Proof.Machine

/-! ## `pad` (R90) -/

/-- A pad count is a byte's value for every block size that is one. -/
theorem toNat_ofNat_padCount (len : Nat) {bs : Nat} (h : bs ≤ 255) :
    (BitVec.ofNat 8 (padCount len bs)).toNat = padCount len bs := by
  have hle := padCount_le len bs
  rw [BitVec.toNat_ofNat, Nat.mod_eq_of_lt (by omega)]

/-- Data that is block-aligned gets one more whole block, and no other data does (R94 (iii)). -/
theorem padCount_eq_iff {bs : Nat} (h : 1 ≤ bs) (len : Nat) : padCount len bs = bs ↔ len % bs = 0 := by
  have hlt := Nat.mod_lt len h
  unfold padCount
  omega

/-! ## `unpad` (R91) -/

/-- A sequence ends in `n` bytes of value `b` when each of its last `n` positions holds `b`. -/
theorem drop_eq_replicate_iff {x : ByteSeq} {n : Nat} (h : n ≤ x.length) (b : Byte) :
    x.drop (x.length - n) = List.replicate n b ↔
      ∀ j, x.length - n ≤ j → j < x.length → x[j]? = some b := by
  constructor
  · intro htail j hj hlt
    have hget := congrArg (·[j - (x.length - n)]?) htail
    simp only [List.getElem?_drop, Nat.add_sub_cancel' hj] at hget
    rw [hget, List.getElem?_replicate, if_pos (by omega)]
  · intro hall
    have hlen : (x.drop (x.length - n)).length = n := by rw [List.length_drop]; omega
    refine List.ext_getElem (hlen.trans List.length_replicate.symm) fun j hj _ => ?_
    rw [List.getElem_drop, List.getElem_replicate]
    exact (List.getElem_eq_iff _).mpr (hall _ (by omega) (by omega))

theorem any_ne_drop_iff {x : ByteSeq} {n : Nat} (h : n ≤ x.length) (b : Byte) :
    (x.drop (x.length - n)).any (· != b) = true ↔ ¬ x.drop (x.length - n) = List.replicate n b := by
  have hlen : (x.drop (x.length - n)).length = n := by rw [List.length_drop]; omega
  rw [List.eq_replicate_iff]
  simp [hlen]

/-- `unpad` by the last byte: it and the length are checked first, then the last `n` bytes (R91 (b) to (e)). -/
theorem unpadBytes_of_getLast? {data : ByteSeq} {last : Byte} (h : data.getLast? = some last) (bs : Nat) :
    unpadBytes data bs =
      if last.toNat = 0 ∨ bs < last.toNat ∨ data.length < last.toNat then .error .badLength
      else if data.drop (data.length - last.toNat) = List.replicate last.toNat last then
        .ok (data.take (data.length - last.toNat))
      else .error .badPadding := by
  obtain ⟨front, rfl⟩ := List.getLast?_eq_some_iff.mp h
  have hlen : front.length + 1 = (front ++ [last]).length := by simp
  simp only [unpadBytes_append, hlen, ← ite_or, or_assoc]
  split
  next => rfl
  next hgood =>
    have hfits : last.toNat ≤ (front ++ [last]).length := by omega
    simp only [any_ne_drop_iff hfits, ite_not]

theorem getLast?_append_replicate (front : ByteSeq) (b : Byte) {n : Nat} (h : 1 ≤ n) :
    (front ++ List.replicate n b).getLast? = some b := by
  simp [List.getLast?_replicate, Nat.ne_of_gt h]

/-- `unpad` takes off what it finds to be `k` bytes of value `k` at the end, and looks at nothing before them (R96). -/
theorem unpadBytes_eq_ok_iff {data v : ByteSeq} {bs : Nat} :
    unpadBytes data bs = .ok v ↔
      ∃ k : Byte, 1 ≤ k.toNat ∧ k.toNat ≤ bs ∧ data = v ++ List.replicate k.toNat k := by
  constructor
  · intro h
    cases hlast : data.getLast? with
    | none =>
      rw [List.getLast?_eq_none_iff.mp hlast, unpadBytes_nil] at h
      cases h
    | some last =>
      rw [unpadBytes_of_getLast? hlast] at h
      split_ifs at h with hbad htail
      obtain rfl := Except.ok.inj h
      refine ⟨last, by omega, by omega, ?_⟩
      rw [← htail, List.take_append_drop]
  · rintro ⟨k, hpos, hle, rfl⟩
    have hlen : (v ++ List.replicate k.toNat k).length = v.length + k.toNat := by simp
    rw [unpadBytes_of_getLast? (getLast?_append_replicate v k hpos), hlen, Nat.add_sub_cancel, List.drop_left,
      List.take_left, if_neg (by omega), if_pos rfl]

/-! ## How a command ends, from its result -/

theorem exec_delivers {i : Instr} {s : State} {v : ByteSeq} (h : commandResult Config.primitive i s = .ok v) :
    ∃ t, exec i s = .next t ∧ Delivered v t := by
  rw [exec_eq, h]
  exact ⟨_, rfl, delivered_of_ok i s v⟩

theorem exec_raises {i : Instr} {s : State} {e : CmdError} (h : commandResult Config.primitive i s = .error e) :
    ∃ t, exec i s = .next t ∧ Raised e t := by
  rw [exec_eq, h]
  exact ⟨_, rfl, raised_of_error i s e⟩

/-- A delivered result stands in `DOUT` byte by byte. -/
theorem Delivered.byteAt {v : ByteSeq} {t : State} (h : Delivered v t) {j : Nat} (hj : j < v.length) :
    t.byteAt .dout j = v[j] := by
  obtain ⟨-, hlen, hout⟩ := h
  have hget : t.out[j]'(by rw [State.length_out, hlen]; exact hj) = t.byteAt .dout (0 + j) :=
    State.getElem_memRead t .dout 0 t.doutLen j _
  rw [Nat.zero_add] at hget
  simp only [← hget, hout]

/-! ## PAD and UNPAD (R92, R93) -/

theorem commandResult_pad (P : Primitive) {s : State} (hb : s.bsz ≠ 0) :
    commandResult P .pad s = .ok (padBytes s.data s.bsz.toNat) :=
  if_neg fun h => hb (beq_iff_eq.mp h)

theorem commandResult_unpad (P : Primitive) {s : State} (hb : s.bsz ≠ 0) :
    commandResult P .unpad s = (unpadBytes s.data s.bsz.toNat).mapError PaddingError.toCmdError :=
  if_neg fun h => hb (beq_iff_eq.mp h)

theorem exec_unpad_delivers {s : State} {v : ByteSeq} (hb : s.bsz ≠ 0)
    (h : unpadBytes s.data s.bsz.toNat = .ok v) : ∃ t, exec .unpad s = .next t ∧ Delivered v t :=
  exec_delivers (by rw [commandResult_unpad _ hb, h]; rfl)

theorem exec_unpad_raises {s : State} {e : PaddingError} (hb : s.bsz ≠ 0)
    (h : unpadBytes s.data s.bsz.toNat = .error e) : ∃ t, exec .unpad s = .next t ∧ Raised e.toCmdError t :=
  exec_raises (by rw [commandResult_unpad _ hb, h]; rfl)

/-- A `BSZ` that is not 0 is a block size R90 and R91 speak of. -/
theorem State.bsz_bounds {s : State} (hb : s.bsz ≠ 0) : 1 ≤ s.bsz.toNat ∧ s.bsz.toNat ≤ 255 :=
  ⟨Nat.one_le_iff_ne_zero.mpr fun h => hb (BitVec.eq_of_toNat_eq h), Nat.le_of_lt_succ s.bsz.isLt⟩

theorem getElem?_data {s : State} {j : Nat} (h : j < s.dinLen) : s.data[j]? = some (s.byteAt .din j) := by
  rw [List.getElem?_eq_getElem (by simpa using h), getElem_data]

/-- The last byte of the data operand. -/
theorem getLast?_data {s : State} (h : s.dinLen ≠ 0) :
    s.data.getLast? = some (s.byteAt .din (s.dinLen - 1)) := by
  rw [List.getLast?_eq_getElem?, State.length_data, getElem?_data (by omega)]

end Sys2Proof.Machine

open Sys2Proof Sys2Proof.Machine

/-- Settles O30: the bytes of `data` come first, and after them only the count, which fits a byte. -/
theorem padAppendsItsCount : Obligations.PadAppendsItsCount := by
  intro data bs _ hle
  refine ⟨length_padBytes data bs, fun j hj => ?_, fun j hj hlt => ?_, ?_⟩
  · exact List.getElem?_append_left hj
  · rw [List.getElem?_eq_getElem hlt, getElem_padBytes_pad data bs j hj hlt]
    exact congrArg some (toNat_ofNat_padCount data.length hle)
  · simp [padBytes, padCount]

/-- Settles O31: each case is one branch of `unpad` by the last byte. -/
theorem unpadDecidesByItsCases : Obligations.UnpadDecidesByItsCases := by
  intro data bs _ _
  refine ⟨?_, fun last hlast => ⟨fun hbad => ?_, fun hpos hle hlen => ⟨?_, fun hall => ?_⟩⟩⟩
  · rintro rfl
    exact unpadBytes_nil bs
  · rw [unpadBytes_of_getLast? hlast, if_pos hbad]
  · rintro ⟨j, hj, hlt, hne⟩
    rw [unpadBytes_of_getLast? hlast, if_neg (by omega), if_neg]
    exact fun htail => hne ((drop_eq_replicate_iff hlen last).mp htail j hj hlt)
  · rw [unpadBytes_of_getLast? hlast, if_neg (by omega), if_pos ((drop_eq_replicate_iff hlen last).mpr hall)]

/-- Settles O32: the count is between 1 and the block size, and `unpad` takes off as many bytes as the last one says. -/
theorem padLengthArithmetic : Obligations.PadLengthArithmetic := by
  intro data bs hbs hle
  have hpos := padCount_pos hbs data.length
  have hcount := padCount_le data.length bs
  refine ⟨⟨hpos, hcount⟩, ?_, padCount_eq_iff hbs data.length, fun v hv => ?_⟩
  · rw [length_padBytes]
    exact ⟨padded_length hbs data.length, by omega, by omega⟩
  · obtain ⟨k, hk, hkbs, rfl⟩ := unpadBytes_eq_ok_iff.mp hv
    have hlen : (v ++ List.replicate k.toNat k).length = v.length + k.toNat := by simp
    rw [hlen]
    exact ⟨k, getLast?_append_replicate v k hk, hk, le_min hkbs (by omega), by omega, by omega⟩

/-- Settles O33: what `pad` appends is a tail that `unpad` takes off. -/
theorem unpadUndoesPad : Obligations.UnpadUndoesPad := by
  intro data bs hbs hle
  have hcount := toNat_ofNat_padCount data.length hle
  refine unpadBytes_eq_ok_iff.mpr ⟨BitVec.ofNat 8 (padCount data.length bs), ?_, ?_, ?_⟩
  · rw [hcount]
    exact padCount_pos hbs data.length
  · rw [hcount]
    exact padCount_le data.length bs
  · rw [hcount, padBytes]

/-- Settles O34: the front is the result. -/
theorem unpadAcceptsExactlyPaddedTails : Obligations.UnpadAcceptsExactlyPaddedTails :=
  fun _ _ _ _ => exists_congr fun _ => unpadBytes_eq_ok_iff

/-- Settles O35: PAD's result is the padded data operand, which stands in `DOUT` byte by byte. -/
theorem padCommandPads : Obligations.PadCommandPads := by
  refine ⟨rfl, fun s => ⟨fun hb => exec_raises_of_invalidInput (invalidInput_of_bsz_eq_zero rfl hb), fun hb => ?_⟩⟩
  obtain ⟨t, hexec, hdel⟩ := exec_delivers (commandResult_pad Config.primitive hb)
  have hlen : (padBytes s.data s.bsz.toNat).length = s.dinLen + padCount s.dinLen s.bsz.toNat := by simp
  refine ⟨t, hexec, hdel, hdel.doutLen.trans hlen, fun j hj => ?_, fun j hj hlt => ?_⟩
  · rw [hdel.byteAt (by omega), getElem_padBytes_data _ _ j (by simpa using hj), getElem_data]
  · rw [hdel.doutLen] at hlt
    rw [hdel.byteAt hlt, getElem_padBytes_pad _ _ j (by simpa using hj), State.length_data]
    exact toNat_ofNat_padCount s.dinLen (State.bsz_bounds hb).2

/-- Settles O36: the cases of `unpad` on the data operand, whose bytes are those of `DIN`. -/
theorem unpadCommandStripsPadding : Obligations.UnpadCommandStripsPadding := by
  refine ⟨rfl, ?_⟩
  rintro s n rfl
  refine ⟨fun hb => exec_raises_of_invalidInput (invalidInput_of_bsz_eq_zero rfl hb), fun hb hbad => ?_,
    fun hb hpos hle hlen => ?_⟩
  all_goals
    obtain ⟨hbs, hbs255⟩ := State.bsz_bounds hb
    obtain ⟨hempty, hcases⟩ := unpadDecidesByItsCases s.data s.bsz.toNat hbs hbs255
    rw [State.length_data] at hcases
  · refine exec_unpad_raises hb (e := .badLength) ?_
    by_cases h0 : s.dinLen = 0
    · exact hempty (List.eq_nil_of_length_eq_zero ((State.length_data s).trans h0))
    · exact (hcases _ (getLast?_data h0)).1 (hbad.resolve_left h0)
  · obtain ⟨hdiffers, hequal⟩ := (hcases _ (getLast?_data (by omega))).2 hpos hle hlen
    constructor
    · rintro ⟨j, hj, hlt, hne⟩
      refine exec_unpad_raises hb (e := .badPadding) (hdiffers ⟨j, hj, hlt, fun h => hne ?_⟩)
      rw [getElem?_data hlt] at h
      exact congrArg BitVec.toNat (Option.some.inj h)
    · intro hall
      have hok := hequal fun j hj hlt =>
        (getElem?_data hlt).trans (congrArg some (BitVec.eq_of_toNat_eq (hall j hj hlt)))
      obtain ⟨t, hexec, hdel⟩ := exec_unpad_delivers hb hok
      refine ⟨t, hexec, hdel.status, ?_, fun j hj => ?_⟩
      · simp [hdel.doutLen]
      · rw [hdel.doutLen] at hj
        rw [hdel.byteAt hj, List.getElem_take, getElem_data]

end

section
/-!
PROOFS. 41_ecb: the ECB commands block by block, the length of every command's result, and the ECB round trip.
-/

namespace Sys2Proof.Machine

/-! ## How a command over any primitive ends -/

theorem commandWith_operandsKept {P : Primitive} {i : Instr} {s t : State} (h : commandWith P i s = .next t) :
    OperandsKept s t := by
  rw [commandWith_eq] at h
  obtain rfl := Host.Outcome.next.inj h
  exact (leaveSequencer_endWith_frame i s _).operands

theorem commandWith_delivers {P : Primitive} {i : Instr} {s : State} {v : ByteSeq}
    (h : commandResult P i s = .ok v) : ∃ t, commandWith P i s = .next t ∧ Delivered v t := by
  rw [commandWith_eq, h]
  exact ⟨_, rfl, delivered_of_ok i s v⟩

/-- `STATUS` = 0x02 says that the command gave a result, and that result is delivered (30_encoding R84). -/
theorem delivered_of_commandWith {P : Primitive} {i : Instr} {s t : State} (h : commandWith P i s = .next t)
    (hs : t.status = 0x02) : ∃ v, commandResult P i s = .ok v ∧ Delivered v t := by
  rw [commandWith_eq] at h
  obtain rfl := Host.Outcome.next.inj h
  cases hr : commandResult P i s with
  | ok v => exact ⟨v, rfl, delivered_of_ok i s v⟩
  | error e =>
    rw [hr, (raised_of_error i s e).status] at hs
    exact absurd hs (statusError_ne_ok e)

/-! ## The operands of a command that gives a result (60_exceptions R121) -/

theorem invalidInput_ecbEncrypt_iff {p : Bool} {s : State} :
    invalidInput (.ecbEncrypt p) s = true ↔ s.keyLen ≠ 16 ∨ (p = false ∧ s.dinLen % 16 ≠ 0) := by
  simp [invalidInput]

theorem invalidInput_ecbDecrypt_iff {p : Bool} {s : State} :
    invalidInput (.ecbDecrypt p) s = true ↔ s.keyLen ≠ 16 ∨ s.dinLen % 16 ≠ 0 := by
  simp [invalidInput]

theorem invalidInput_cbcEncrypt_iff {p : Bool} {s : State} :
    invalidInput (.cbcEncrypt p) s = true ↔
      s.keyLen ≠ 16 ∨ s.ivLen ≠ 16 ∨ (p = false ∧ s.dinLen % 16 ≠ 0) := by
  simp [invalidInput, or_assoc]

theorem invalidInput_cbcDecrypt_iff {s : State} :
    invalidInput .cbcDecrypt s = true ↔ s.keyLen ≠ 16 ∨ s.ivLen ≠ 16 ∨ s.dinLen % 16 ≠ 0 := by
  simp [invalidInput, or_assoc]

theorem invalidInput_padding_iff {i : Instr} {s : State} (hi : isCipher i = false) :
    invalidInput i s = true ↔ s.bsz = 0 := by
  cases i with
  | pad | unpad => exact beq_iff_eq
  | ecbEncrypt p | ecbDecrypt p | cbcEncrypt p | cbcDecrypt => simp [isCipher] at hi

section

variable {P : Primitive} {s : State} {v : ByteSeq}

theorem not_invalidInput_of_ok {i : Instr} (h : commandResult P i s = .ok v) : ¬ invalidInput i s = true :=
  fun hinv => by simp [commandResult_of_invalidInput P hinv] at h

theorem pad_of_ok (h : commandResult P .pad s = .ok v) : s.bsz ≠ 0 ∧ v = padBytes s.data s.bsz.toNat := by
  have hb : s.bsz ≠ 0 := fun hb => not_invalidInput_of_ok h ((invalidInput_padding_iff rfl).mpr hb)
  rw [commandResult_pad P hb] at h
  exact ⟨hb, (Except.ok.inj h).symm⟩

theorem unpad_of_ok (h : commandResult P .unpad s = .ok v) :
    s.bsz ≠ 0 ∧ unpadBytes s.data s.bsz.toNat = .ok v := by
  have hb : s.bsz ≠ 0 := fun hb => not_invalidInput_of_ok h ((invalidInput_padding_iff rfl).mpr hb)
  rw [commandResult_unpad P hb] at h
  exact ⟨hb, unpadBytes_of_mapError h⟩

theorem ecbEncrypt_of_ok {p : Bool} (h : commandResult P (.ecbEncrypt p) s = .ok v) :
    (p = true ∨ s.dinLen % 16 = 0) ∧ v = ecbEncryptBytes P s.keyBlock (encryptSource p s.data) := by
  have hvalid : s.keyLen = 16 ∧ (p = true ∨ s.dinLen % 16 = 0) := by
    grind [not_invalidInput_of_ok h, invalidInput_ecbEncrypt_iff (p := p) (s := s)]
  obtain ⟨hk, hp⟩ := hvalid
  rw [commandResult_ecbEncrypt P p hk hp] at h
  exact ⟨hp, (Except.ok.inj h).symm⟩

theorem ecbDecrypt_valid_of_ok {p : Bool} (h : commandResult P (.ecbDecrypt p) s = .ok v) :
    s.keyLen = 16 ∧ s.dinLen % 16 = 0 := by
  simpa [invalidInput_ecbDecrypt_iff] using not_invalidInput_of_ok h

theorem ecbDecrypt_of_ok (h : commandResult P (.ecbDecrypt false) s = .ok v) :
    s.dinLen % 16 = 0 ∧ v = ecbDecryptBytes P s.keyBlock s.data := by
  obtain ⟨hk, hp⟩ := ecbDecrypt_valid_of_ok h
  rw [commandResult_ecbDecrypt P hk hp] at h
  exact ⟨hp, (Except.ok.inj h).symm⟩

theorem ecbDecrypt_unpad_of_ok (h : commandResult P (.ecbDecrypt true) s = .ok v) :
    s.dinLen % 16 = 0 ∧ unpadBytes (ecbDecryptBytes P s.keyBlock s.data) 16 = .ok v := by
  obtain ⟨hk, hp⟩ := ecbDecrypt_valid_of_ok h
  rw [commandResult_ecbDecrypt_unpad P hk hp] at h
  exact ⟨hp, unpadBytes_of_mapError h⟩

theorem cbcEncrypt_of_ok {p : Bool} (h : commandResult P (.cbcEncrypt p) s = .ok v) :
    (p = true ∨ s.dinLen % 16 = 0) ∧
      v = cbcEncryptBytes P s.keyBlock s.ivBlock (encryptSource p s.data) := by
  have hvalid : s.keyLen = 16 ∧ s.ivLen = 16 ∧ (p = true ∨ s.dinLen % 16 = 0) := by
    grind [not_invalidInput_of_ok h, invalidInput_cbcEncrypt_iff (p := p) (s := s)]
  obtain ⟨hk, hi, hp⟩ := hvalid
  rw [commandResult_cbcEncrypt P p hk hi hp] at h
  exact ⟨hp, (Except.ok.inj h).symm⟩

theorem cbcDecrypt_of_ok (h : commandResult P .cbcDecrypt s = .ok v) :
    s.dinLen % 16 = 0 ∧ v = cbcDecryptBytes P s.keyBlock s.ivBlock s.data := by
  have hvalid : s.keyLen = 16 ∧ s.ivLen = 16 ∧ s.dinLen % 16 = 0 := by
    simpa [invalidInput_cbcDecrypt_iff] using not_invalidInput_of_ok h
  obtain ⟨hk, hi, hp⟩ := hvalid
  rw [commandResult_cbcDecrypt P hk hi hp] at h
  exact ⟨hp, (Except.ok.inj h).symm⟩

end

/-! ## The length of a result (R104, 42_cbc R116, 40_padding R94) -/

/-- The blocks of the source of an encrypt that gives a result make up the whole source. -/
theorem length_blocks_encryptSource {p : Bool} {s : State} (hp : p = true ∨ s.dinLen % 16 = 0) :
    16 * ((encryptSource p s.data).length / 16) = if p then 16 * (s.dinLen / 16 + 1) else s.dinLen := by
  have haligned := length_encryptSource p s.data (by simpa using hp)
  rw [← length_encryptSource_data, Nat.mul_div_cancel' (Nat.dvd_of_mod_eq_zero haligned)]

theorem length_blocks_data {s : State} (haligned : s.dinLen % 16 = 0) : 16 * (s.data.length / 16) = s.dinLen := by
  rw [State.length_data, Nat.mul_div_cancel' (Nat.dvd_of_mod_eq_zero haligned)]

/-- `unpad` takes off at least one byte and at most the block size (40_padding R94 (iv)). -/
theorem length_unpadBytes {x v : ByteSeq} {bs : Nat} (h : unpadBytes x bs = .ok v) :
    v.length < x.length ∧ x.length ≤ v.length + bs := by
  obtain ⟨k, hpos, hle, rfl⟩ := unpadBytes_eq_ok_iff.mp h
  simp only [List.length_append, List.length_replicate]
  omega

/-! ## The blocks of an ECB result (R100, R101) -/

/-- Block `n` of a sequence processed block by block. -/
theorem blk_joinBlocks_map (f : Block → Block) {x : ByteSeq} {n : Nat} (hn : n < x.length / 16) :
    blk (joinBlocks ((blocks x).map f)) n = f (blk x n) := by
  rw [blk_joinBlocks _ n (by simpa using hn), List.getElem_map, getElem_blocks]

theorem blk_ecbEncryptBytes (P : Primitive) (k : Block) {x : ByteSeq} {n : Nat} (hn : n < x.length / 16) :
    blk (ecbEncryptBytes P k x) n = P.E k (blk x n) := blk_joinBlocks_map (P.E k) hn

theorem blk_ecbDecryptBytes (P : Primitive) (k : Block) {x : ByteSeq} {n : Nat} (hn : n < x.length / 16) :
    blk (ecbDecryptBytes P k x) n = P.D k (blk x n) := blk_joinBlocks_map (P.D k) hn

/-- The blocks of a delivered result stand in `DOUT` at offsets 0, 16, 32, ... -/
theorem Delivered.readBlock {v : ByteSeq} {t : State} (h : Delivered v t) {n : Nat}
    (hn : 16 * n + 16 ≤ v.length) : t.readBlock .dout (16 * n) = blk v n := by
  ext j hj : 1
  rw [getElem_readBlock, h.byteAt (by omega), getElem_blk, List.getD_eq_getElem _ _ (by omega)]

/-- Below the end of the data `Blk(Src, n)` is what `DIN` holds (20_memory R52). -/
theorem srcBlock_eq_readBlock (i : Instr) {s : State} {n : Nat} (hn : 16 * n + 16 ≤ s.dinLen) :
    (seqSetup i s).srcBlock n = s.readBlock .din (16 * n) := by
  ext j hj : 1
  rw [State.srcBlock, Vector.getElem_ofFn, getElem_readBlock, State.srcByte, if_pos (by simp [seqSetup]; omega)]
  rfl

section

variable {P : Primitive} {s t : State} {n : Nat}

theorem ecbEncrypt_doutLen {p : Bool} (h : commandWith P (.ecbEncrypt p) s = .next t) (hs : t.status = 0x02) :
    t.doutLen = if p then 16 * (s.dinLen / 16 + 1) else s.dinLen := by
  obtain ⟨v, hv, hdel⟩ := delivered_of_commandWith h hs
  obtain ⟨hp, rfl⟩ := ecbEncrypt_of_ok hv
  rw [hdel.doutLen, length_ecbEncryptBytes, length_blocks_encryptSource hp]

theorem ecbEncrypt_readBlock {p : Bool} (h : commandWith P (.ecbEncrypt p) s = .next t) (hs : t.status = 0x02)
    (hn : 16 * n < t.doutLen) :
    t.readBlock .dout (16 * n) = P.E s.keyBlock ((seqSetup (.ecbEncrypt p) s).srcBlock n) := by
  obtain ⟨v, hv, hdel⟩ := delivered_of_commandWith h hs
  obtain ⟨-, rfl⟩ := ecbEncrypt_of_ok hv
  rw [hdel.doutLen, length_ecbEncryptBytes] at hn
  rw [hdel.readBlock (by rw [length_ecbEncryptBytes]; omega), blk_ecbEncryptBytes P _ (by omega),
    blk_encryptSource (.inl rfl) s n (by omega)]

/-- Below the end of the data the source block is what `DIN` holds, whatever `P`. -/
theorem ecbEncrypt_readBlock_din {p : Bool} (h : commandWith P (.ecbEncrypt p) s = .next t) (hs : t.status = 0x02)
    (hn : 16 * n + 16 ≤ s.dinLen) :
    t.readBlock .dout (16 * n) = P.E s.keyBlock (s.readBlock .din (16 * n)) := by
  have hlen := ecbEncrypt_doutLen h hs
  rw [ecbEncrypt_readBlock h hs (by split at hlen <;> omega), srcBlock_eq_readBlock _ hn]

theorem ecbDecrypt_readBlock (h : commandWith P (.ecbDecrypt false) s = .next t) (hs : t.status = 0x02)
    (hn : 16 * n + 16 ≤ s.dinLen) :
    t.readBlock .dout (16 * n) = P.D s.keyBlock (s.readBlock .din (16 * n)) := by
  obtain ⟨v, hv, hdel⟩ := delivered_of_commandWith h hs
  obtain ⟨-, rfl⟩ := ecbDecrypt_of_ok hv
  rw [hdel.readBlock (by rw [length_ecbDecryptBytes, State.length_data]; omega),
    blk_ecbDecryptBytes P _ (by rw [State.length_data]; omega), blk_data s n hn]

end

/-! ## The ECB round trip (R103) -/

theorem keyBlock_loadKey (s : State) (k : Block) : (s.loadKey k.toList).keyBlock = k := by
  have hread := memRead_loadKey s k.toList
  rw [Vector.length_toList] at hread
  exact Vector.toList_inj.mp ((toList_readBlock _ .key 0).trans hread)

@[simp] theorem keyBlock_loadData (s : State) (v : ByteSeq) : (s.loadData v).keyBlock = s.keyBlock :=
  State.readBlock_congr (sp := .key) rfl 0

/-- A state whose operands are the key `k` and the one block `b` of data. -/
def State.withKeyAndBlock (k b : Block) : State := (State.reset.loadKey k.toList).loadData b.toList

theorem State.withKeyAndBlock_keyLen (k b : Block) : (State.withKeyAndBlock k b).keyLen = 16 := by
  simp [State.withKeyAndBlock]

theorem State.withKeyAndBlock_keyBlock (k b : Block) : (State.withKeyAndBlock k b).keyBlock = k := by
  rw [State.withKeyAndBlock, keyBlock_loadData, keyBlock_loadKey]

theorem State.withKeyAndBlock_data (k b : Block) : (State.withKeyAndBlock k b).data = b.toList :=
  data_loadData _ _

/-- ECB_ENCRYPT of operands it accepts, and ECB_DECRYPT of its result under the same key: it decrypts the encrypted
source, and with `P = 1` unpads that. -/
theorem ecbDecrypt_of_ecbEncrypt (P : Primitive) {p : Bool} {s : State} (hk : s.keyLen = 16)
    (hp : p = true ∨ s.dinLen % 16 = 0) :
    ∃ t, commandWith P (.ecbEncrypt p) s = .next t ∧
      commandResult P (.ecbDecrypt p) (t.loadData t.out) =
        let pt := ecbDecryptBytes P s.keyBlock (ecbEncryptBytes P s.keyBlock (encryptSource p s.data))
        if p then (unpadBytes pt 16).mapError PaddingError.toCmdError else .ok pt := by
  obtain ⟨t, ht, hdel⟩ := commandWith_delivers (commandResult_ecbEncrypt P p hk hp)
  have ho := commandWith_operandsKept ht
  have hkey : (t.loadData t.out).keyLen = 16 := ho.keyLen.trans hk
  have haligned : (t.loadData t.out).dinLen % 16 = 0 := by simp [hdel.doutLen]
  have hblock : (t.loadData t.out).keyBlock = s.keyBlock := (keyBlock_loadData t _).trans ho.keyBlock
  have hdata := (data_loadData t t.out).trans hdel.out
  refine ⟨t, ht, ?_⟩
  rw [← hdata, ← hblock]
  cases p with
  | false => exact commandResult_ecbDecrypt P hkey haligned
  | true => exact commandResult_ecbDecrypt_unpad P hkey haligned

theorem ecb_round_trip {P : Primitive} (hP : P.Inverse) {p : Bool} {s : State} (hk : s.keyLen = 16)
    (hp : p = true ∨ s.dinLen % 16 = 0) :
    ∃ t u, commandWith P (.ecbEncrypt p) s = .next t ∧
      commandWith P (.ecbDecrypt p) (t.loadData t.out) = .next u ∧ Delivered s.data u := by
  obtain ⟨t, ht, hresult⟩ := ecbDecrypt_of_ecbEncrypt P hk hp
  rw [ecbDecryptBytes_ecbEncryptBytes hP _ (length_encryptSource p s.data (by simpa using hp))] at hresult
  have hdata : commandResult P (.ecbDecrypt p) (t.loadData t.out) = .ok s.data := by
    rw [hresult]
    cases p with
    | false => rfl
    | true => exact congrArg (Except.mapError _) (unpadUndoesPad s.data 16 (by omega) (by omega))
  obtain ⟨u, hu, hdel⟩ := commandWith_delivers hdata
  exact ⟨t, u, ht, hu, hdel⟩

/-- The padded round trip of one block says that `D` undoes `E` on it: it is the first block of what is decrypted. -/
theorem decrypt_encrypt_of_round_trip {P : Primitive} {k b : Block} {t u : State}
    (ht : commandWith P (.ecbEncrypt true) (State.withKeyAndBlock k b) = .next t)
    (hu : commandWith P (.ecbDecrypt true) (t.loadData t.out) = .next u) (hdel : Delivered b.toList u) :
    P.D k (P.E k b) = b := by
  obtain ⟨t', ht', hresult⟩ := ecbDecrypt_of_ecbEncrypt P (p := true) (State.withKeyAndBlock_keyLen k b) (.inl rfl)
  obtain rfl := Host.Outcome.next.inj (ht.symm.trans ht')
  obtain ⟨v, hv, hdelv⟩ := delivered_of_commandWith hu hdel.status
  obtain rfl : v = b.toList := hdelv.out.symm.trans hdel.out
  rw [State.withKeyAndBlock_keyBlock, State.withKeyAndBlock_data] at hresult
  obtain ⟨c, -, -, hpt⟩ := unpadBytes_eq_ok_iff.mp (unpadBytes_of_mapError (hresult.symm.trans hv))
  have hfirst : blk (encryptSource true b.toList) 0 = b := blk_append_zero b _
  have hlen : 0 < (encryptSource true b.toList).length / 16 := by simp [encryptSource]
  calc P.D k (P.E k b)
    _ = blk (ecbDecryptBytes P k (ecbEncryptBytes P k (encryptSource true b.toList))) 0 := by
      rw [blk_ecbDecryptBytes P k (by rw [length_ecbEncryptBytes]; omega), blk_ecbEncryptBytes P k hlen, hfirst]
    _ = b := by rw [hpt, blk_append_zero]

end Sys2Proof.Machine

open Sys2Proof Sys2Proof.Machine

/-- Settles O38: the result is the encrypted blocks of the source, which padding makes a whole number of blocks. -/
theorem ecbEncryptEncryptsEachBlock : Obligations.EcbEncryptEncryptsEachBlock := by
  refine ⟨rfl, rfl, fun p s => ⟨fun hbad => ?_, fun hk hp => ?_⟩⟩
  · exact exec_raises_of_invalidInput (invalidInput_ecbEncrypt_iff.mpr hbad)
  · have hp' : p = true ∨ s.dinLen % 16 = 0 := (Bool.eq_false_or_eq_true p).imp_right hp
    obtain ⟨t, hexec, hdel⟩ := exec_delivers (commandResult_ecbEncrypt Config.primitive p hk hp')
    have hcmd := (exec_eq_commandWith (.ecbEncrypt p) s).symm.trans hexec
    exact ⟨t, hexec, hdel.status, ecbEncrypt_doutLen hcmd hdel.status,
      fun i hi => ecbEncrypt_readBlock hcmd hdel.status hi⟩

/-- Settles O39: `pt` is the decrypted blocks of the data; with `P = 1` the command ends as `unpad` of it does. -/
theorem ecbDecryptDecryptsEachBlock : Obligations.EcbDecryptDecryptsEachBlock := by
  refine ⟨rfl, rfl, fun p s => ⟨fun hbad => ?_, fun hk haligned => ?_⟩⟩
  · exact exec_raises_of_invalidInput (invalidInput_ecbDecrypt_iff.mpr hbad)
  · refine ⟨ecbDecryptBytes Config.primitive s.keyBlock s.data, _,
      (length_ecbDecryptBytes _ _ _).trans (length_blocks_data haligned), fun i hi => ?_, exec_eq _ _, ?_, ?_, ?_⟩
    · exact (blk_ecbDecryptBytes _ _ (by rw [State.length_data]; omega)).trans
        (congrArg (Config.primD s.keyBlock) (blk_data s i (by omega)))
    · rintro rfl
      rw [commandResult_ecbDecrypt _ hk haligned]
      exact delivered_of_ok _ s _
    · rintro rfl v hv
      rw [commandResult_ecbDecrypt_unpad _ hk haligned, hv]
      exact delivered_of_ok _ s v
    · rintro rfl e he
      rw [commandResult_ecbDecrypt_unpad _ hk haligned, he]
      exact raised_of_error _ s _

/-- Settles O42: a ciphertext block is a function of its source block. -/
theorem ecbEqualBlocksGiveEqualBlocks : Obligations.EcbEqualBlocksGiveEqualBlocks := by
  intro p s t i j h hs hi hj hsrc
  rw [exec_eq_commandWith] at h
  rw [ecbEncrypt_readBlock h hs hi, ecbEncrypt_readBlock h hs hj, hsrc]

/-- Settles O43: block `i` of either result is a function of the key and of what `DIN` holds as block `i`. -/
theorem ecbBlocksAreIndependent : Obligations.EcbBlocksAreIndependent := by
  intro P s s' t t' i hkey hi hi' hblock
  refine ⟨fun p p' h h' hs hs' => ?_, fun h h' hs hs' => ?_⟩
  · rw [ecbEncrypt_readBlock_din h hs hi, ecbEncrypt_readBlock_din h' hs' hi', hkey, hblock]
  · rw [ecbDecrypt_readBlock h hs hi, ecbDecrypt_readBlock h' hs' hi', hkey, hblock]

/-- Settles O44: the result of each command, by the inversion of its success. -/
theorem cipherResultLengths : Obligations.CipherResultLengths := by
  intro i s t h hs
  rw [exec_eq_commandWith] at h
  obtain ⟨v, hv, hdel⟩ := delivered_of_commandWith h hs
  rw [hdel.doutLen]
  cases i with
  | pad =>
    obtain ⟨hb, rfl⟩ := pad_of_ok hv
    obtain ⟨hpos, -⟩ := State.bsz_bounds hb
    have hcount := padCount_pos hpos s.dinLen
    have hle := padCount_le s.dinLen s.bsz.toNat
    rw [length_padBytes, State.length_data]
    exact ⟨by rw [padded_length hpos, Nat.mul_mod_right], by omega, by omega⟩
  | unpad =>
    obtain ⟨-, hunpad⟩ := unpad_of_ok hv
    simpa using length_unpadBytes hunpad
  | ecbEncrypt p =>
    obtain ⟨hp, rfl⟩ := ecbEncrypt_of_ok hv
    rw [length_ecbEncryptBytes]
    exact ⟨Nat.mul_mod_right _ _, length_blocks_encryptSource hp⟩
  | cbcEncrypt p =>
    obtain ⟨hp, rfl⟩ := cbcEncrypt_of_ok hv
    rw [length_cbcEncryptBytes]
    exact ⟨Nat.mul_mod_right _ _, length_blocks_encryptSource hp⟩
  | ecbDecrypt p =>
    cases p with
    | false =>
      obtain ⟨haligned, rfl⟩ := ecbDecrypt_of_ok hv
      exact (length_ecbDecryptBytes _ _ _).trans (length_blocks_data haligned)
    | true =>
      obtain ⟨haligned, hunpad⟩ := ecbDecrypt_unpad_of_ok hv
      have hlen := length_unpadBytes hunpad
      rwa [length_ecbDecryptBytes, length_blocks_data haligned] at hlen
  | cbcDecrypt =>
    obtain ⟨haligned, rfl⟩ := cbcDecrypt_of_ok hv
    exact (length_cbcDecryptBytes _ _ _ _).trans (length_blocks_data haligned)

/-- Settles O45: P-inverse decrypts every encrypted block, so the round trip gives the source back; the round trip of
one block under one key is P-inverse for them. -/
theorem ecbRoundTripIffPrimitiveInverse : Obligations.EcbRoundTripIffPrimitiveInverse := by
  refine ⟨exec_eq_commandWith, fun P => ⟨⟨fun hP s hk => ecb_round_trip hP hk (.inl rfl), fun h k b => ?_⟩,
    fun hP s hk haligned => ecb_round_trip hP hk (.inr haligned)⟩⟩
  obtain ⟨t, u, ht, hu, hdel⟩ := h (State.withKeyAndBlock k b) (State.withKeyAndBlock_keyLen k b)
  rw [State.withKeyAndBlock_data] at hdel
  exact decrypt_encrypt_of_round_trip ht hu hdel

end

section
/-!
PROOFS. 42_cbc: XOR of blocks, the CBC commands block by block, the CBC round trip, a long message in two commands,
and decryption with a wrong IV.
-/

namespace Sys2Proof.Machine

/-! ## XOR of blocks (R110) -/

theorem xorBlock_comm (x y : Block) : xorBlock x y = xorBlock y x := by
  ext j hj : 1
  rw [getElem_xorBlock, getElem_xorBlock, BitVec.xor_comm]

theorem xorBlock_zero (x : Block) : xorBlock x (Vector.replicate 16 0) = x := by
  ext j hj : 1
  rw [getElem_xorBlock, Vector.getElem_replicate]
  exact BitVec.xor_zero

/-! ## The IV operand -/

theorem ivBlock_loadIV (s : State) (b : Block) : (s.loadIV b.toList).ivBlock = b := by
  have hread := memRead_loadIV s b.toList
  rw [Vector.length_toList] at hread
  exact Vector.toList_inj.mp ((toList_readBlock _ .iv 0).trans hread)

@[simp] theorem ivBlock_loadData (s : State) (v : ByteSeq) : (s.loadData v).ivBlock = s.ivBlock :=
  State.readBlock_congr (sp := .iv) rfl 0

@[simp] theorem keyBlock_loadIV (s : State) (v : ByteSeq) : (s.loadIV v).keyBlock = s.keyBlock :=
  State.readBlock_congr (sp := .key) rfl 0

@[simp] theorem data_loadIV (s : State) (v : ByteSeq) : (s.loadIV v).data = s.data :=
  State.memRead_congr (sp := .din) rfl 0 _

theorem OperandsKept.ivBlock {s t : State} (h : OperandsKept s t) : t.ivBlock = s.ivBlock :=
  State.readBlock_congr (sp := .iv) h.iv 0

/-! ## The CBC commands block by block (R111, R112) -/

theorem blk_cbcEncryptBytes (P : Primitive) (k c : Block) {x : ByteSeq} {n : Nat} (hn : n < x.length / 16) :
    blk (cbcEncryptBytes P k c x) n =
      P.E k (xorBlock (blk x n) (if n = 0 then c else blk (cbcEncryptBytes P k c x) (n - 1))) := by
  have hlen : (cbcEncryptBlocks P k c (blocks x)).length = x.length / 16 := by simp
  rw [cbcEncryptBytes, blk_joinBlocks _ n (by omega), blk_joinBlocks _ (n - 1) (by omega),
    getElem_cbcEncryptBlocks _ _ _ _ _ (by simpa using hn), getElem_blocks, dite_eq_ite]

theorem blk_cbcDecryptBytes (P : Primitive) (k c : Block) {x : ByteSeq} {n : Nat} (hn : n < x.length / 16) :
    blk (cbcDecryptBytes P k c x) n =
      xorBlock (P.D k (blk x n)) (if n = 0 then c else blk x (n - 1)) := by
  rw [cbcDecryptBytes, blk_joinBlocks _ n (by simpa using hn),
    getElem_cbcDecryptBlocks _ _ _ _ _ (by simpa using hn)]
  simp only [getElem_blocks, dite_eq_ite]

section

variable {P : Primitive} {s t : State} {n : Nat}

theorem cbcEncrypt_doutLen {p : Bool} (h : commandWith P (.cbcEncrypt p) s = .next t) (hs : t.status = 0x02) :
    t.doutLen = if p then 16 * (s.dinLen / 16 + 1) else s.dinLen := by
  obtain ⟨v, hv, hdel⟩ := delivered_of_commandWith h hs
  obtain ⟨hp, rfl⟩ := cbcEncrypt_of_ok hv
  rw [hdel.doutLen, length_cbcEncryptBytes, length_blocks_encryptSource hp]

theorem cbcEncrypt_readBlock {p : Bool} (h : commandWith P (.cbcEncrypt p) s = .next t) (hs : t.status = 0x02)
    (hn : 16 * n < t.doutLen) :
    t.readBlock .dout (16 * n) =
      P.E s.keyBlock (xorBlock ((seqSetup (.cbcEncrypt p) s).srcBlock n)
        (if n = 0 then s.ivBlock else t.readBlock .dout (16 * (n - 1)))) := by
  obtain ⟨v, hv, hdel⟩ := delivered_of_commandWith h hs
  obtain ⟨-, rfl⟩ := cbcEncrypt_of_ok hv
  rw [hdel.doutLen, length_cbcEncryptBytes] at hn
  rw [hdel.readBlock (by rw [length_cbcEncryptBytes]; omega), hdel.readBlock (by rw [length_cbcEncryptBytes]; omega),
    blk_cbcEncryptBytes P _ _ (by omega), blk_encryptSource (.inr rfl) s n (by omega)]

theorem cbcDecrypt_doutLen (h : commandWith P .cbcDecrypt s = .next t) (hs : t.status = 0x02) :
    t.doutLen = s.dinLen := by
  obtain ⟨v, hv, hdel⟩ := delivered_of_commandWith h hs
  obtain ⟨haligned, rfl⟩ := cbcDecrypt_of_ok hv
  rw [hdel.doutLen, length_cbcDecryptBytes, length_blocks_data haligned]

theorem cbcDecrypt_readBlock (h : commandWith P .cbcDecrypt s = .next t) (hs : t.status = 0x02)
    (hn : 16 * n < s.dinLen) :
    t.readBlock .dout (16 * n) =
      xorBlock (P.D s.keyBlock (s.readBlock .din (16 * n)))
        (if n = 0 then s.ivBlock else s.readBlock .din (16 * (n - 1))) := by
  obtain ⟨v, hv, hdel⟩ := delivered_of_commandWith h hs
  obtain ⟨haligned, rfl⟩ := cbcDecrypt_of_ok hv
  have hlen := length_blocks_data haligned
  rw [hdel.readBlock (by rw [length_cbcDecryptBytes]; omega), blk_cbcDecryptBytes P _ _ (by omega),
    blk_data s n (by omega), blk_data s (n - 1) (by omega)]

end

/-! ## The CBC round trip (R114) -/

/-- CBC_ENCRYPT, then CBC_DECRYPT of its result under the same key and IV, gives the encrypted source back; with
`P = 1` its padding is still there. -/
theorem cbcDecrypt_of_cbcEncrypt {P : Primitive} (hP : P.Inverse) {p : Bool} {s : State} (hk : s.keyLen = 16)
    (hi : s.ivLen = 16) (hp : p = true ∨ s.dinLen % 16 = 0) :
    ∃ t u, commandWith P (.cbcEncrypt p) s = .next t ∧
      commandWith P .cbcDecrypt (t.loadData t.out) = .next u ∧ Delivered (encryptSource p s.data) u := by
  obtain ⟨t, ht, hdel⟩ := commandWith_delivers (commandResult_cbcEncrypt P p hk hi hp)
  have ho := commandWith_operandsKept ht
  have haligned : (t.loadData t.out).dinLen % 16 = 0 := by simp [hdel.doutLen]
  have hdata := (data_loadData t t.out).trans hdel.out
  have hresult := commandResult_cbcDecrypt P (s := t.loadData t.out) (ho.keyLen.trans hk) (ho.ivLen.trans hi) haligned
  rw [keyBlock_loadData, ivBlock_loadData, ho.keyBlock, ho.ivBlock, hdata,
    cbcDecryptBytes_cbcEncryptBytes hP _ _ (length_encryptSource p s.data (by simpa using hp))] at hresult
  obtain ⟨u, hu, hdelu⟩ := commandWith_delivers hresult
  exact ⟨t, u, ht, hu, hdelu⟩

/-- UNPAD with `BSZ` = 16 of a result that is padded data gives the data. -/
theorem unpad_of_delivered_padBytes (P : Primitive) {data : ByteSeq} {u : State}
    (h : Delivered (padBytes data 16) u) :
    ∃ v, commandWith P .unpad ((u.loadData u.out).setBSZ 16) = .next v ∧ Delivered data v := by
  have hdata : ((u.loadData u.out).setBSZ 16).data = padBytes data 16 := (data_loadData u u.out).trans h.out
  have hunpad := unpadUndoesPad data 16 (by omega) (by omega)
  refine commandWith_delivers ?_
  rw [commandResult_unpad P (by simp), hdata]
  exact congrArg (Except.mapError _) hunpad

/-! ## A message in two parts (R115) -/

/-- What a block-aligned first part adds to the length does not change the padding. -/
theorem encryptSource_append (p : Bool) {a : ByteSeq} (ha : a.length % 16 = 0) (b : ByteSeq) :
    encryptSource p (a ++ b) = a ++ encryptSource p b := by
  cases p with
  | false => rfl
  | true =>
    have hcount : padCount (a ++ b).length 16 = padCount b.length 16 := by
      rw [List.length_append]
      unfold padCount
      omega
    simp only [encryptSource, if_true, padBytes, hcount, List.append_assoc]

/-- The last 16 bytes of joined blocks are the last block. -/
theorem drop_joinBlocks {bs : List Block} (h : bs ≠ []) :
    (joinBlocks bs).drop (16 * bs.length - 16) = (bs.getLast h).toList := by
  have hlen : 16 * bs.length - 16 = (joinBlocks bs.dropLast).length := by simp; omega
  rw [hlen]
  conv_lhs => arg 2; rw [← List.dropLast_append_getLast h, joinBlocks_append]
  rw [List.drop_left]
  simp

/-- The ciphertext of a block-aligned first part chains into the rest by its last 16 bytes alone. -/
theorem cbcEncryptBytes_append (P : Primitive) (k c : Block) {a : ByteSeq} (hne : a ≠ []) (ha : a.length % 16 = 0) :
    ∃ last : Block, (cbcEncryptBytes P k c a).drop (a.length - 16) = last.toList ∧
      ∀ x, cbcEncryptBytes P k c (a ++ x) = cbcEncryptBytes P k c a ++ cbcEncryptBytes P k last x := by
  have hpos := List.length_pos_iff.mpr hne
  have hlen : (cbcEncryptBlocks P k c (blocks a)).length = a.length / 16 := by simp
  have hblocks : cbcEncryptBlocks P k c (blocks a) ≠ [] := List.length_pos_iff.mp (by omega)
  refine ⟨(cbcEncryptBlocks P k c (blocks a)).getLast hblocks, ?_, fun x => ?_⟩
  · rw [← drop_joinBlocks hblocks, cbcEncryptBytes]
    congr 1
    omega
  · simp only [cbcEncryptBytes]
    rw [blocks_append ha, cbcEncryptBlocks_append, joinBlocks_append, List.getLast?_eq_some_getLast hblocks,
      Option.getD_some]

/-! ## A wrong IV (R112) -/

theorem drop_cbcDecryptBytes (P : Primitive) (k c c' : Block) (x : ByteSeq) :
    (cbcDecryptBytes P k c x).drop 16 = (cbcDecryptBytes P k c' x).drop 16 := by
  unfold cbcDecryptBytes
  cases blocks x with
  | nil => rfl
  | cons b rest =>
    simp only [cbcDecryptBlocks, joinBlocks_cons]
    rw [List.drop_left' Vector.length_toList, List.drop_left' Vector.length_toList]

end Sys2Proof.Machine

open Sys2Proof Sys2Proof.Machine

/-- Settles O37: each law is one of the XOR of bytes, in every lane. -/
theorem xorIsBytewise : Obligations.XorIsBytewise := by
  refine fun x y => ⟨fun j hj b _ => ?_, xorBlock_comm x y, xorBlock_cancel x y, xorBlock_zero x⟩
  rw [getElem_xorBlock, BitVec.getLsbD_xor]

/-- Settles O40: the result is the chained blocks of the source, which padding makes a whole number of blocks. -/
theorem cbcEncryptChainsBlocks : Obligations.CbcEncryptChainsBlocks := by
  refine ⟨rfl, rfl, fun p s => ⟨fun hbad => ?_, fun hk hi hp => ?_⟩⟩
  · exact exec_raises_of_invalidInput (invalidInput_cbcEncrypt_iff.mpr hbad)
  · have hp' : p = true ∨ s.dinLen % 16 = 0 := (Bool.eq_false_or_eq_true p).imp_right hp
    obtain ⟨t, hexec, hdel⟩ := exec_delivers (commandResult_cbcEncrypt Config.primitive p hk hi hp')
    have hcmd := (exec_eq_commandWith (.cbcEncrypt p) s).symm.trans hexec
    exact ⟨t, hexec, hdel.status, cbcEncrypt_doutLen hcmd hdel.status,
      fun i hlt => cbcEncrypt_readBlock hcmd hdel.status hlt⟩

/-- Settles O41: the result is the unchained blocks of the data, as long as the data is. -/
theorem cbcDecryptUnchainsBlocks : Obligations.CbcDecryptUnchainsBlocks := by
  refine ⟨rfl, fun s => ⟨fun hbad => ?_, fun hk hi haligned => ?_⟩⟩
  · exact exec_raises_of_invalidInput (invalidInput_cbcDecrypt_iff.mpr hbad)
  · obtain ⟨t, hexec, hdel⟩ := exec_delivers (commandResult_cbcDecrypt Config.primitive hk hi haligned)
    have hcmd := (exec_eq_commandWith .cbcDecrypt s).symm.trans hexec
    exact ⟨t, hexec, hdel.status, cbcDecrypt_doutLen hcmd hdel.status,
      fun i hlt => cbcDecrypt_readBlock (P := Config.primitive) hcmd hdel.status hlt⟩

/-- Settles O46: what is decrypted is the encrypted source, and with `P = 1` that is the padded data. -/
theorem cbcRoundTrip : Obligations.CbcRoundTrip := by
  refine fun P hP s hk hi => ⟨fun haligned => cbcDecrypt_of_cbcEncrypt hP hk hi (.inr haligned), ?_⟩
  obtain ⟨t, u, ht, hu, hdel⟩ := cbcDecrypt_of_cbcEncrypt hP (p := true) hk hi (.inl rfl)
  change Delivered (padBytes s.data 16) u at hdel
  obtain ⟨v, hv, hdelv⟩ := unpad_of_delivered_padBytes P hdel
  have hlen := hdel.doutLen
  rw [length_padBytes, State.length_data] at hlen
  have hpos := padCount_pos (bs := 16) (by omega) s.dinLen
  have hle := padCount_le s.dinLen 16
  have hne : u.out ≠ s.data := fun heq => by
    have hsame := congrArg List.length heq
    rw [State.length_out, State.length_data] at hsame
    omega
  exact ⟨t, u, v, ht, hu, hdel, hne, by omega, by omega, hv, hdelv⟩

/-- Settles O47: the last ciphertext block of the first command is the `C(i-1)` of the second one's first block. -/
theorem cbcPiecesChainedByHost : Obligations.CbcPiecesChainedByHost := by
  intro P p s a b hk hi hdata hne ha hb
  have hdin : s.dinLen = a.length + b.length := by rw [← State.length_data, hdata, List.length_append]
  obtain ⟨last, hlast, happend⟩ := cbcEncryptBytes_append P s.keyBlock s.ivBlock hne ha
  obtain ⟨whole, hwhole, hdelw⟩ := commandWith_delivers
    (commandResult_cbcEncrypt P p hk hi (hb.imp_right fun _ => by omega))
  obtain ⟨first, hfirst, hdelf⟩ := commandWith_delivers
    (commandResult_cbcEncrypt P false (s := s.loadData a) hk hi (.inr ha))
  have ho := commandWith_operandsKept hfirst
  obtain ⟨second, hsecond, hdels⟩ := commandWith_delivers
    (commandResult_cbcEncrypt P p (s := (first.loadIV last.toList).loadData b) (ho.keyLen.trans hk) (by simp) hb)
  simp only [keyBlock_loadData, ivBlock_loadData, keyBlock_loadIV, ivBlock_loadIV, data_loadData, ho.keyBlock]
    at hdelf hdels
  have hout : first.out = cbcEncryptBytes P s.keyBlock s.ivBlock a := hdelf.out
  refine ⟨whole, first, second, hwhole, hfirst, ?_, hdelw.status, hdelf.status, hdels.status, ?_⟩
  · rw [hout, hlast, hsecond]
  · rw [hdelw.out, hout, hdels.out, hdata, encryptSource_append p ha, happend]

/-- Settles O48: past its first block the result is made of the key and the data alone. -/
theorem wrongIVDamagesFirstBlockOnly : Obligations.WrongIVDamagesFirstBlockOnly := by
  intro P s t t' v hk hi haligned hv h h'
  obtain ⟨u, hu, hdel⟩ := commandWith_delivers (commandResult_cbcDecrypt P hk hi haligned)
  obtain ⟨u', hu', hdel'⟩ := commandWith_delivers
    (commandResult_cbcDecrypt P (s := s.loadIV v) hk (by simp [hv]) haligned)
  obtain rfl := Host.Outcome.next.inj (h.symm.trans hu)
  obtain rfl := Host.Outcome.next.inj (h'.symm.trans hu')
  refine ⟨hdel'.status, ?_⟩
  rw [hdel.out, hdel'.out, keyBlock_loadIV, data_loadIV]
  exact drop_cbcDecryptBytes P _ _ _ _

end

section
/-!
PROOFS. 60_exceptions: how every command and every Issue ends, in `STATUS` and in what the host sees; which operands the
outcome rests on; what the host's reads reveal.
-/

namespace Sys2Proof.Machine

/-! ## How a command ends (R120, R127, R130) -/

/-- The state `t` is the end of a command whose result is `r`: `return v`, or `raise e`. -/
def Ends (r : Except CmdError ByteSeq) (t : State) : Prop :=
  match r with
  | .ok v => Delivered v t
  | .error e => Raised e t

/-- The `STATUS` a command with result `r` ends in. -/
def statusOf : Except CmdError ByteSeq → Byte
  | .ok _ => statusOk
  | .error e => statusError e

theorem ends_leaveSequencer (i : Instr) (s : State) (r : Except CmdError ByteSeq) :
    Ends r (leaveSequencer i (s.endWith r)) := by
  cases r with
  | ok v => exact delivered_of_ok i s v
  | error e => exact raised_of_error i s e

theorem ends_of_exec {i : Instr} {s t : State} (h : exec i s = .next t) :
    Ends (commandResult Config.primitive i s) t := by
  rw [exec_eq] at h
  obtain rfl := Host.Outcome.next.inj h
  exact ends_leaveSequencer i s _

/-- The result or the error of an Issue: the command's own, or `IllegalCmd` for a reserved word (R124). -/
def issueOutcome (w : Byte) (s : State) : Except CmdError ByteSeq :=
  match decode w with
  | .command i => commandResult Config.primitive i s
  | .reserved _ => .error .illegalCmd

theorem ends_issueResult (w : Byte) (s : State) : Ends (issueOutcome w s) (issueResult w s) := by
  unfold issueOutcome issueResult
  cases decode w with
  | command i =>
    simp only [commandResult_accept]
    exact ends_leaveSequencer i _ _
  | reserved _ => exact ⟨rfl, rfl, rfl⟩

/-- A step that performs an Issue: how it ends, and what it leaves unchanged (R127, 30_encoding R74). -/
theorem step_issue_ends {s : State} {w : Byte} {rest : List Txn} (hin : s.inbox = .issue w :: rest)
    (hb : s.busy = false) :
    ∃ t, step s = .next t ∧ Ends (issueOutcome w s) t ∧ OperandsKept s t ∧ t.cmd = w ∧
      t.replies = s.replies ∧ t.inbox = rest := by
  obtain ⟨ho, hcmd, hhost⟩ := issueResult_frame w { s with inbox := rest }
  have hout : issueOutcome w { s with inbox := rest } = issueOutcome w s := by
    unfold issueOutcome
    cases decode w with
    | command i => exact commandResult_of_operandsKept _ i ⟨rfl, rfl, rfl, rfl, rfl, rfl, rfl⟩
    | reserved _ => rfl
  exact ⟨_, step_issue hin hb, hout ▸ ends_issueResult w _, { ho with }, hcmd, hhost.replies, hhost.inbox⟩

section

variable {r : Except CmdError ByteSeq} {s t : State}

theorem Ends.status (h : Ends r t) : t.status = statusOf r := by
  cases r with
  | ok v => exact Delivered.status h
  | error e => exact Raised.status h

theorem Ends.busy_done (h : Ends r t) : t.busy = false ∧ t.done = true := by
  rw [busy_of_status h.status, done_of_status h.status]
  cases r with
  | ok v =>
    obtain ⟨hbusy, hdone, -⟩ := statusWord_fields false true 0
    exact ⟨hbusy, hdone⟩
  | error e =>
    obtain ⟨hbusy, hdone, -⟩ := statusWord_fields false true e.code
    exact ⟨hbusy, hdone⟩

theorem Ends.sameVisible (hs : Ends r s) (ht : Ends r t) : SameVisible s t := by
  cases r with
  | ok v => exact Delivered.sameVisible hs ht
  | error e => exact Raised.sameVisible hs ht

/-- `ERR` not 0 says that an error was raised. -/
theorem Ends.raised_of_err_ne_zero (h : Ends r t) (he : t.err ≠ 0) : ∃ e, Raised e t := by
  cases r with
  | ok v => exact absurd (err_of_status (Delivered.status h)) he
  | error e => exact ⟨e, h⟩

theorem statusOf_cases (r : Except CmdError ByteSeq) :
    statusOf r = 0x02 ∨ statusOf r = 0x06 ∨ statusOf r = 0x0A ∨ statusOf r = 0x0E ∨ statusOf r = 0x12 := by
  cases r with
  | ok v => exact .inl statusOk_eq
  | error e => exact .inr (statusError_cases e)

end

/-! ## The order of the errors (R121, R126) -/

/-- `unpadStatus` looks for a byte other than `n` from the end of the sequence backward, `unpad` among its last `n`
bytes (40_padding R91 (d)): they find one in the same sequences. -/
theorem any_range_ne_iff {x : ByteSeq} {b : Byte} (h : b.toNat ≤ x.length) :
    ((List.range b.toNat).any fun j => (x.getD (x.length - 1 - j) 0).toNat != b.toNat) = true ↔
      ¬ x.drop (x.length - b.toNat) = List.replicate b.toNat b := by
  have hget : ∀ j, j < x.length → (x[j]? = some b ↔ (x.getD j 0).toNat = b.toNat) := fun j hj => by
    rw [List.getD_eq_getElem?_getD, List.getElem?_eq_getElem hj, BitVec.toNat_inj, Option.some_inj,
      Option.getD_some]
  rw [drop_eq_replicate_iff h, List.any_eq_true]
  constructor
  · rintro ⟨j, hj, hne⟩ hall
    rw [List.mem_range] at hj
    exact bne_iff_ne.mp hne ((hget _ (by omega)).mp (hall _ (by omega) (by omega)))
  · intro hdiffers
    push Not at hdiffers
    obtain ⟨j, hj, hlt, hne⟩ := hdiffers
    refine ⟨x.length - 1 - j, List.mem_range.mpr (by omega), bne_iff_ne.mpr ?_⟩
    rw [show x.length - 1 - (x.length - 1 - j) = j by omega]
    exact fun heq => hne ((hget j hlt).mpr heq)

/-- The `STATUS` of a command that unpads is the one R126 gives for what it unpads. -/
theorem statusOf_unpadBytes (x : ByteSeq) (bs : Nat) :
    statusOf ((unpadBytes x bs).mapError PaddingError.toCmdError) = unpadStatus x bs := by
  cases hlast : x.getLast? with
  | none =>
    obtain rfl := List.getLast?_eq_none_iff.mp hlast
    exact statusError_badLength
  | some last =>
    have hne : x.length ≠ 0 := fun h => by simp [List.eq_nil_of_length_eq_zero h] at hlast
    have hget : x.getD (x.length - 1) 0 = last := by
      rw [List.getD_eq_getElem?_getD, ← List.getLast?_eq_getElem?, hlast]
      rfl
    rw [unpadBytes_of_getLast? hlast]
    simp only [unpadStatus, hget, hne, false_or]
    split
    next => exact statusError_badLength
    next hgood =>
      simp only [any_range_ne_iff (x := x) (b := last) (by omega), ite_not]
      split
      next => exact statusOk_eq
      next => exact statusError_badPadding

/-- The `STATUS` of a command that finds its operands valid: `unpad` decides it, or it is `OK` (R126). -/
def statusOfValid (P : Primitive) (i : Instr) (s : State) : Byte :=
  match i with
  | .unpad => unpadStatus s.data s.bsz.toNat
  | .ecbDecrypt true => unpadStatus (ecbDecryptBytes P s.keyBlock s.data) 16
  | .pad | .ecbEncrypt _ | .ecbDecrypt false | .cbcEncrypt _ | .cbcDecrypt => 0x02

theorem statusOf_commandResult (P : Primitive) (i : Instr) (s : State) :
    statusOf (commandResult P i s) = if invalidInput i s then 0x06 else statusOfValid P i s := by
  unfold commandResult
  split
  next => exact statusError_invalidInput
  next =>
    cases i with
    | unpad => exact statusOf_unpadBytes _ _
    | ecbDecrypt p =>
      cases p with
      | true => exact statusOf_unpadBytes _ _
      | false => exact statusOk_eq
    | pad | ecbEncrypt p | cbcEncrypt p | cbcDecrypt => exact statusOk_eq

theorem unpadStatus_ne_invalidInput (x : ByteSeq) (bs : Nat) : unpadStatus x bs ≠ 0x06 := by
  unfold unpadStatus
  dsimp only
  split_ifs <;> decide

theorem statusOfValid_ne_invalidInput (P : Primitive) (i : Instr) (s : State) : statusOfValid P i s ≠ 0x06 := by
  cases i with
  | unpad => exact unpadStatus_ne_invalidInput _ _
  | ecbDecrypt p =>
    cases p with
    | true => exact unpadStatus_ne_invalidInput _ _
    | false => exact (by decide : (0x02 : Byte) ≠ 0x06)
  | pad | ecbEncrypt p | cbcEncrypt p | cbcDecrypt => exact (by decide : (0x02 : Byte) ≠ 0x06)

theorem statusOf_commandResult_eq_invalidInput_iff (P : Primitive) (i : Instr) (s : State) :
    statusOf (commandResult P i s) = 0x06 ↔ invalidInput i s = true := by
  simp only [statusOf_commandResult, ite_eq_left_iff, statusOfValid_ne_invalidInput, imp_false, not_not]

/-! ## The operands a command uses (R121, R128) -/

theorem State.data_congr {s t : State} (hdin : t.din = s.din) (hlen : t.dinLen = s.dinLen) : t.data = s.data := by
  rw [State.data, hlen]
  exact State.memRead_congr (sp := .din) hdin 0 _

/-- A command's result rests on the data, on the key if it is a cipher command, on the IV if it is a CBC command, and on
`BSZ` if it is PAD or UNPAD (10_state R24, R25). -/
theorem commandResult_of_used_operands (P : Primitive) {i : Instr} {s t : State} (hdin : t.din = s.din)
    (hdinLen : t.dinLen = s.dinLen) (hkey : isCipher i = true → t.key = s.key ∧ t.keyLen = s.keyLen)
    (hiv : usesChain i = true → t.iv = s.iv ∧ t.ivLen = s.ivLen) (hbsz : isCipher i = false → t.bsz = s.bsz) :
    commandResult P i t = commandResult P i s := by
  have hdata : t.data = s.data := State.data_congr hdin hdinLen
  have hkeyBlock : isCipher i = true → t.keyBlock = s.keyBlock := fun hi =>
    State.readBlock_congr (sp := .key) (hkey hi).1 0
  have hivBlock : usesChain i = true → t.ivBlock = s.ivBlock := fun hi =>
    State.readBlock_congr (sp := .iv) (hiv hi).1 0
  have hinv : invalidInput i t = invalidInput i s := by
    cases i with
    | pad | unpad => simp only [invalidInput, hbsz rfl]
    | ecbEncrypt p | ecbDecrypt p => simp only [invalidInput, (hkey rfl).2, hdinLen]
    | cbcEncrypt p | cbcDecrypt => simp only [invalidInput, (hkey rfl).2, (hiv rfl).2, hdinLen]
  cases i with
  | pad | unpad => simp only [commandResult, hinv, hdata, hbsz rfl]
  | ecbEncrypt p => simp only [commandResult, hinv, hdata, hkeyBlock rfl]
  | ecbDecrypt p => cases p <;> simp only [commandResult, hinv, hdata, hkeyBlock rfl]
  | cbcEncrypt p | cbcDecrypt => simp only [commandResult, hinv, hdata, hkeyBlock rfl, hivBlock rfl]

/-! ## What the host's reads reveal (R132) -/

/-- What a transaction answers the host, if it answers (20_memory R61, R62). -/
def replyTo (x : Txn) (s : State) : Option Reply :=
  match x with
  | .readStatus => some (.status s.status)
  | .readOut => some (.out s.doutLen s.out)
  | .loadKey _ | .loadIV _ | .loadData _ | .setBSZ _ | .issue _ | .reset => none

theorem TxnEffect.replies {x : Txn} {s u : State} (h : TxnEffect x s u) :
    u.replies = s.replies ++ (replyTo x s).toList := by
  cases x with
  | loadKey v | loadIV v | loadData v =>
    obtain ⟨-, -, rfl⟩ := h
    exact (List.append_nil _).symm
  | setBSZ v =>
    obtain ⟨-, rfl⟩ := h
    exact (List.append_nil _).symm
  | issue w =>
    obtain ⟨-, rfl⟩ := h
    obtain ⟨-, -, hhost⟩ := issueResult_frame w s
    exact hhost.replies.trans (List.append_nil _).symm
  | readStatus =>
    obtain rfl := h
    rfl
  | readOut =>
    obtain ⟨-, -, rfl⟩ := h
    rfl
  | reset =>
    obtain rfl := h
    exact (List.append_nil _).symm

/-- What a read answers rests on the host-visible part of the state alone (10_state R36). -/
theorem replyTo_of_sameVisible (x : Txn) {s t : State} (h : SameVisible s t) : replyTo x t = replyTo x s := by
  obtain ⟨hstatus, hlen, hout⟩ := h
  cases x with
  | readStatus => simp only [replyTo, hstatus]
  | readOut => simp only [replyTo, hlen, hout]
  | loadKey _ | loadIV _ | loadData _ | setBSZ _ | issue _ | reset => rfl

theorem replies_of_step {s t : State} {x : Txn} {rest : List Txn} (hin : s.inbox = x :: rest)
    (h : step s = .next t) : t.replies = s.replies ++ (replyTo x s).toList := by
  have hvisible : SameVisible s { s with inbox := rest } := ⟨rfl, rfl, rfl⟩
  rw [← replyTo_of_sameVisible x hvisible]
  exact (txnEffect_of_step hin h).replies

theorem exists_replyTo {x : Txn} (h : x = .readStatus ∨ x = .readOut) (s : State) : ∃ r, replyTo x s = some r := by
  obtain rfl | rfl := h
  · exact ⟨_, rfl⟩
  · exact ⟨_, rfl⟩

theorem replyTo_eq_none {x : Txn} (hstatus : x ≠ .readStatus) (hout : x ≠ .readOut) (s : State) :
    replyTo x s = none := by
  cases x with
  | readStatus => exact absurd rfl hstatus
  | readOut => exact absurd rfl hout
  | loadKey _ | loadIV _ | loadData _ | setBSZ _ | issue _ | reset => rfl

end Sys2Proof.Machine

open Sys2Proof Sys2Proof.Machine

/-- Settles O21: a step appends what the transaction answers, and only a read answers, from what the host can see. -/
theorem repliesRevealOnlyVisibleState : Obligations.RepliesRevealOnlyVisibleState := by
  intro s t x rest hin hstep
  have hreplies := replies_of_step hin hstep
  refine ⟨fun hstatus hout => ?_, fun hread => ?_⟩
  · rw [hreplies, replyTo_eq_none hstatus hout]
    exact List.append_nil _
  · obtain ⟨r, hr⟩ := exists_replyTo hread s
    rw [hr] at hreplies
    refine ⟨r, hreplies, fun s' t' hin' hvis hstep' => ?_⟩
    rw [replies_of_step hin' hstep', replyTo_of_sameVisible x hvis, hr]
    rfl

/-- Settles O28: an Issue ends with a result or an error, and each has its own `STATUS`. -/
theorem everyIssueCompletes : Obligations.EveryIssueCompletes := by
  intro s w rest hin hb
  obtain ⟨t, hstep, hends, -⟩ := step_issue_ends hin hb
  obtain ⟨hbusy, hdone⟩ := hends.busy_done
  exact ⟨t, hstep, hbusy, hdone, hends.status ▸ statusOf_cases _⟩

/-- Settles O49: a command with valid operands ends in another `STATUS`, and the check is the table's conditions. -/
theorem invalidInputExactlyByTheTable : Obligations.InvalidInputExactlyByTheTable := by
  intro i s t h
  rw [(ends_of_exec h).status, statusOf_commandResult_eq_invalidInput_iff]
  cases i with
  | pad | unpad => exact invalidInput_padding_iff rfl
  | ecbEncrypt p => exact invalidInput_ecbEncrypt_iff
  | ecbDecrypt p => exact invalidInput_ecbDecrypt_iff
  | cbcEncrypt p => exact invalidInput_cbcEncrypt_iff
  | cbcDecrypt => exact invalidInput_cbcDecrypt_iff

/-- Settles O50: the error of a command is `InvalidInput`, or one of `unpad`'s where the command unpads. -/
theorem paddingErrorsOnlyFromUnpadding : Obligations.PaddingErrorsOnlyFromUnpadding := by
  intro i s t h
  rw [(ends_of_exec h).status]
  cases hr : commandResult Config.primitive i s with
  | ok v => simp [statusOf]
  | error e =>
    obtain rfl | ⟨hi, rfl | rfl⟩ := commandResult_error hr
    · simp [statusOf]
    · simp [statusOf, hi]
    · simp [statusOf, hi]

/-- Settles O51: a reserved word is found before the operands are checked, and they before anything is unpadded. -/
theorem firstErrorInPriorityOrder : Obligations.FirstErrorInPriorityOrder := by
  intro s w rest hin hb
  obtain ⟨t, hstep, hends, -⟩ := step_issue_ends hin hb
  refine ⟨t, hstep, hends.status.trans ?_⟩
  unfold issueOutcome
  cases decode w with
  | reserved why => exact statusError_illegalCmd
  | command i =>
    rw [statusOf_commandResult]
    rfl

/-- Settles O52: an Issue that ends with `ERR` not 0 raised an error, and no Issue writes an operand. -/
theorem errorDeliversNothing : Obligations.ErrorDeliversNothing := by
  intro s t w rest hin hb hstep he
  obtain ⟨u, hu, hends, hoperands, hcmd, -⟩ := step_issue_ends hin hb
  obtain rfl := Host.Outcome.next.inj (hstep.symm.trans hu)
  obtain ⟨hbusy, hdone⟩ := hends.busy_done
  obtain ⟨e, hraised⟩ := hends.raised_of_err_ne_zero he
  exact ⟨hraised.doutLen, hraised.out, hbusy, hdone, hraised.status ▸ statusError_cases e, hoperands, hcmd⟩

/-- Settles O53: the two states present the same operands, and the outcome rests on the operands alone. -/
theorem errorsAreNotSticky : Obligations.ErrorsAreNotSticky := by
  intro s s' w rest hin hb hs' hb'
  have hin' : s'.inbox = .issue w :: rest := (congrArg State.inbox hs').trans hin
  have ho : OperandsKept s s' := by constructor <;> rw [hs']
  exact ⟨_, _, step_issue hin hb, step_issue hin' hb', sameVisible_issueResult w { ho with }⟩

/-- Settles O55: the results are equal, and what the host sees of a command is its result. -/
theorem unusedOperandsAreIgnored : Obligations.UnusedOperandsAreIgnored := by
  intro i s s' t t' h h' hdin hdinLen hkey hiv hbsz
  have hends' := ends_of_exec h'
  rw [commandResult_of_used_operands _ hdin hdinLen hkey hiv hbsz] at hends'
  exact (ends_of_exec h).sameVisible hends'

/-- Settles O27: the outcome of a reserved word is `IllegalCmd` before any operand is looked at. -/
theorem reservedWordRaisesIllegalCmd : Obligations.ReservedWordRaisesIllegalCmd := by
  intro s w rest why hin hb hd
  obtain ⟨t, hstep, hends, hoperands, hcmd, hreplies, hinbox⟩ := step_issue_ends hin hb
  have hraised : Raised .illegalCmd t := by
    rw [issueOutcome, hd] at hends
    exact hends
  exact ⟨t, hstep, hraised.status, hraised.doutLen, hraised.out, hcmd, hoperands, hreplies, hinbox⟩

end

section
/-!
PROOFS. 70_reset_and_hazards: the Reset transaction, a command whose operands were not loaded, and the operands as all
that an outcome rests on.
-/

namespace Sys2Proof.Machine

/-! ## Operands that were not loaded (R152) -/

theorem State.data_eq_nil {s : State} (h : s.dinLen = 0) : s.data = [] :=
  List.eq_nil_of_length_eq_zero ((State.length_data s).trans h)

/-- Padding nothing gives one whole block of padding (40_padding R90). -/
theorem padBytes_nil (b : Byte) : padBytes [] b.toNat = List.replicate b.toNat b := by
  simp [padBytes, padCount]

/-! ## The outcome of a command rests on its valid operand bytes (R154) -/

theorem keyLen_of_valid {i : Instr} {s : State} (hi : isCipher i = true) (h : ¬ invalidInput i s = true) :
    s.keyLen = 16 :=
  not_not.mp fun hne => h (invalidInput_of_keyLen_ne hi hne)

theorem ivLen_of_valid {i : Instr} {s : State} (hi : usesChain i = true) (h : ¬ invalidInput i s = true) :
    s.ivLen = 16 :=
  not_not.mp fun hne => h (invalidInput_of_ivLen_ne hi hne)

/-- The first block of a buffer is its first 16 bytes. -/
theorem State.readBlock_of_memRead {s t : State} {sp : Space} (h : s.memRead sp 0 16 = t.memRead sp 0 16) :
    s.readBlock sp 0 = t.readBlock sp 0 := by
  rw [← toList_readBlock, ← toList_readBlock] at h
  exact Vector.toList_inj.mp h

section

variable {s t : State} (h : SameOperands s t)
include h

theorem SameOperands.invalidInput_eq (i : Instr) : invalidInput i s = invalidInput i t := by
  cases i <;> simp only [invalidInput, h.keyLen, h.ivLen, h.bsz, h.dinLen]

theorem SameOperands.keyBlock_eq (hlen : t.keyLen = 16) : s.keyBlock = t.keyBlock := by
  have hkey := h.key
  rw [h.keyLen, hlen] at hkey
  exact State.readBlock_of_memRead hkey

theorem SameOperands.ivBlock_eq (hlen : t.ivLen = 16) : s.ivBlock = t.ivBlock := by
  have hiv := h.iv
  rw [h.ivLen, hlen] at hiv
  exact State.readBlock_of_memRead hiv

/-- A command reads `KEY` and `IV` only where their lengths are 16, and then only valid bytes of them. -/
theorem SameOperands.commandResult_eq (P : Primitive) (i : Instr) :
    commandResult P i s = commandResult P i t := by
  by_cases hinv : invalidInput i t = true
  case pos =>
    rw [commandResult_of_invalidInput P hinv, commandResult_of_invalidInput P ((h.invalidInput_eq i).trans hinv)]
  case neg =>
    have hkey : isCipher i = true → s.keyBlock = t.keyBlock := fun hi => h.keyBlock_eq (keyLen_of_valid hi hinv)
    have hiv : usesChain i = true → s.ivBlock = t.ivBlock := fun hi => h.ivBlock_eq (ivLen_of_valid hi hinv)
    cases i with
    | pad | unpad => simp only [commandResult, h.invalidInput_eq, h.data, h.bsz]
    | ecbEncrypt p => simp only [commandResult, h.invalidInput_eq, h.data, hkey rfl]
    | ecbDecrypt p => cases p <;> simp only [commandResult, h.invalidInput_eq, h.data, hkey rfl]
    | cbcEncrypt p | cbcDecrypt => simp only [commandResult, h.invalidInput_eq, h.data, hkey rfl, hiv rfl]

theorem SameOperands.issueOutcome_eq (w : Byte) : issueOutcome w s = issueOutcome w t := by
  unfold issueOutcome
  cases decode w with
  | command i => exact h.commandResult_eq _ i
  | reserved _ => rfl

end

end Sys2Proof.Machine

open Sys2Proof Sys2Proof.Machine

/-- Settles O3: a length of 0 is not 16; no data pads to one whole block, and has no last byte to unpad by. -/
theorem unloadedOperandsGiveDefinedErrors : Obligations.UnloadedOperandsGiveDefinedErrors := by
  intro s
  refine ⟨fun i hi hk => ?_, fun i hi hv => ?_, fun hd hb => ⟨?_, ?_⟩⟩
  · exact exec_raises_of_invalidInput (invalidInput_of_keyLen_ne hi (by simp [hk]))
  · exact exec_raises_of_invalidInput (invalidInput_of_ivLen_ne hi (by simp [hv]))
  · rw [← padBytes_nil, ← State.data_eq_nil hd]
    exact exec_delivers (commandResult_pad _ hb)
  · refine exec_unpad_raises hb (e := .badLength) ?_
    rw [State.data_eq_nil hd]
    exact unpadBytes_nil _

/-- Settles O54: the outcomes of the word are equal, and what the host sees of an Issue is its outcome. -/
theorem outcomeDependsOnOperandsOnly : Obligations.OutcomeDependsOnOperandsOnly := by
  intro s s' w rest rest' hin hin' hb hb' hsame
  obtain ⟨t, hstep, hends, -⟩ := step_issue_ends hin hb
  obtain ⟨t', hstep', hends', -⟩ := step_issue_ends hin' hb'
  rw [← hsame.issueOutcome_eq w] at hends'
  exact ⟨t, t', hstep, hstep', hends.sameVisible hends'⟩

/-- Settles O2: Reset does not look at `BUSY`, and its effect is the reset value of each register. -/
theorem resetTransactionEmptiesEngine : Obligations.ResetTransactionEmptiesEngine := by
  intro s rest hin
  exact ⟨_, step_cons hin, rfl, rfl, rfl, rfl, rfl, rfl, rfl, rfl, rfl, rfl⟩

end
